-- ==== Sys2Proof/Word.lean ====
section
/-!
DEFINITION. The byte, the one width of every register, operand, address byte and result of the CORE
(spec 00_scope.md R5, 20_memory.md R41).
-/

namespace Sys2Proof

/-- An unsigned 8-bit value, the spec's BYTE (R5, R7). Bit 7 is the most significant bit (R8). -/
abbrev Byte := BitVec 8

end Sys2Proof
end

