-- ==== Sys2Proof/Config.lean ====
section
/-!
DEFINITION. The implementation parameters of spec 00_scope.md R5, and the one free value the spec leaves open.
-/

namespace Sys2Proof

/-- MEM_SIZE, the number of bytes of memory: 64 (R5; D20 makes the value normative, log entry 4). -/
abbrev memSize : Nat := 64

/-- NREG, the number of general registers: 2, with indices 0 and 1 (R5, R19). -/
abbrev numRegs : Nat := 2

/-- The free value of 60_exceptions.md R98: what a byte covered by a failed encoder write holds afterwards.
It has no body, so nothing can be proved of a value of it. A fresh one is drawn for every byte, by applying it
to the counter `freeIndex` of the state (DESIGN CHOICE, log entry 5; safe). -/
opaque Config.freeByte : Nat → Byte

end Sys2Proof
end

