-- ==== Sys2Proof/Syntax.lean ====
section
/-!
DEFINITION. The instructions (one constructor per row of spec/opcode_table.json) and the lines of the spec's
assembly notation (30_encoding.md R64).
-/

namespace Sys2Proof

/-- The symbolic instructions of the CORE (30_encoding.md R54, R60). Every operand is a whole byte (R52, D3):
an operand above 255 cannot be written down. -/
inductive Instr where
  /-- ADD, `Add` with two source register indices (R67). -/
  | add (x y : Byte)
  /-- SUB, `Subtract` with two source register indices (R68). -/
  | sub (x y : Byte)
  /-- NOP, `NoOp` (R70). -/
  | nop
  /-- JMP, `Jump` to an absolute memory address (R71). -/
  | jmp (target : Byte)
  deriving DecidableEq, Repr

/-- A label's name in the assembly notation, as its characters (R64). -/
abbrev AsmName := List Char

/-- The operand of `jmp` in the assembly notation: a number from 0 to 255, or a label (R64; that a label may
stand for its address is DEDUCED, log entry 12). -/
inductive AsmTarget where
  | num (b : Byte)
  | label (name : AsmName)
  deriving DecidableEq, Repr

/-- The things a line of the assembly notation can hold (R64). -/
inductive AsmItem where
  /-- `name:`, a label for the address of the next byte. -/
  | label (name : AsmName)
  | add (x y : Byte)
  | sub (x y : Byte)
  | nop
  | jmp (target : AsmTarget)
  /-- `.byte b`, a raw data byte. -/
  | byte (b : Byte)
  /-- `.org n`: the next byte goes to address `n`. -/
  | org (n : Byte)
  deriving DecidableEq, Repr

end Sys2Proof
end

