-- ==== Sys2Proof/WellFormed.lean ====
section
/-!
DEFINITION. The source's well-formedness conditions on the instructions of a program. They are conditions that a
program's author keeps, NOT checks of the hardware: the decoder and the encoder check no operand
(30_encoding.md R56, R61; 90_conflicts.md C1).
-/

namespace Sys2Proof

/-- A register operand names one of the two registers (R56: "operand values x, y must index a valid register"). -/
def regIndexOk (x : Byte) : Bool := decide (x.toNat < numRegs)

/-- A jump target lies in memory, the source's condition on `Jump` (10_state.md R27, 90_conflicts.md C1). -/
def targetOk (t : Byte) : Bool := decide (t.toNat < memSize)

/-- The instruction meets the source's conditions on programs. Every instruction, well-formed or not, encodes,
decodes and executes (an ill-formed ADD or SUB faults when it executes: 60_exceptions.md R93; an ill-formed JMP
halts the run: 41_control.md R71). -/
def Instr.wellFormed : Instr → Bool
  | .add x y => regIndexOk x && regIndexOk y
  | .sub x y => regIndexOk x && regIndexOk y
  | .nop => true
  | .jmp t => targetOk t

end Sys2Proof
end

