-- ==== Sys2Proof/Decode.lean ====
section
/-!
DEFINITION. The opcode map, the decoder and the encoder of spec 30_encoding.md: the decoder on any list of bytes,
the encoder's lookup table after it, and the host's `decodeTableWord`.
-/

namespace Sys2Proof

/-- The opcode byte of ADD (30_encoding.md R54). -/
abbrev opAdd : Byte := 0x01#8
/-- The opcode byte of SUB (R54). -/
abbrev opSub : Byte := 0x02#8
/-- The opcode byte of NOP (R54). -/
abbrev opNop : Byte := 0x03#8
/-- The opcode byte of JMP (R54). -/
abbrev opJmp : Byte := 0x04#8

/-- Why some bytes do not decode. -/
inductive DecodeError where
  /-- The opcode byte is none of 0x01 to 0x04 (R55). Raised as InvalidOpcode; safe: the spec names it. -/
  | illegal (op : Byte)
  /-- The instruction's byte at this offset does not exist: the bytes end before it (20_memory.md R43).
  Raised as IndexOutOfRange on MEM; safe: the spec names it. -/
  | missing (offset : Nat)
  deriving DecidableEq, Repr

/-- The operand bytes `x` and `y` of format RR, read in order after the opcode (R51, R57, R58). -/
def decodeRR (mk : Byte → Byte → Instr) : List Byte → Except DecodeError (Instr × Nat)
  | [] => .error (.missing 1)
  | [_] => .error (.missing 2)
  | x :: y :: _ => .ok (mk x y, 3)

/-- The operand byte `target` of format J (R51, R57, R58). -/
def decodeJ (mk : Byte → Instr) : List Byte → Except DecodeError (Instr × Nat)
  | [] => .error (.missing 1)
  | t :: _ => .ok (mk t, 2)

/-- The decoder of R58 on the bytes that stand at an address and after it: the instruction and its width. The
opcode is checked before any operand byte is read, and no operand value is checked (R56). -/
def decode : List Byte → Except DecodeError (Instr × Nat)
  | [] => .error (.missing 0)
  | op :: rest =>
    if op = opAdd then decodeRR .add rest
    else if op = opSub then decodeRR .sub rest
    else if op = opNop then .ok (.nop, 1)
    else if op = opJmp then decodeJ .jmp rest
    else .error (.illegal op)

/-- The encoder's lookup table, opcode column (R60). -/
def opcodeOf : Instr → Byte
  | .add _ _ => opAdd
  | .sub _ _ => opSub
  | .nop => opNop
  | .jmp _ => opJmp

/-- The encoder's lookup table, width column: the bytes an instruction occupies (R53, R60). -/
def instrWidth : Instr → Nat
  | .add _ _ => 3
  | .sub _ _ => 3
  | .nop => 1
  | .jmp _ => 2

/-- The byte sequence of an instruction, opcode first (R41, R60). -/
def encode : Instr → List Byte
  | .add x y => [opAdd, x, y]
  | .sub x y => [opSub, x, y]
  | .nop => [opNop]
  | .jmp t => [opJmp, t]

/-- The three bytes, first to last, of an instruction whose bits are `w`, with bit 0 the least significant bit of
the first byte and every bit from `nbits` on zero: the numbering of spec/opcode_table.json. -/
def wordBytes (nbits w : Nat) : List Byte :=
  let v := w % 2 ^ nbits
  [BitVec.ofNat 8 v, BitVec.ofNat 8 (v / 2 ^ 8), BitVec.ofNat 8 (v / 2 ^ 16)]

/-- The instruction the decoder reads from an instruction word of the opcode table, `none` where it refuses. -/
def decodeTableWord (nbits w : Nat) : Option Instr :=
  match decode (wordBytes nbits w) with
  | .ok (i, _) => some i
  | .error _ => none

end Sys2Proof
end

