-- ==== Sys2Proof/Machine/State.lean ====
section
/-!
DEFINITION. The machine's state as plain data, its faults and refusals, its reset state, and the data types of the
host interface (spec 10_state.md R16, 45_sequencer.md R74, 60_exceptions.md R94, 70_reset_and_hazards.md R110).
-/

namespace Sys2Proof.Machine

/-- Which array an index went out of: the `space` field of an IndexOutOfRange record (60_exceptions.md R94). -/
inductive Space where
  /-- The memory array, indices 0..63. -/
  | mem
  /-- The register file, indices 0 and 1. -/
  | reg
  deriving DecidableEq, Repr

/-- The spec's two fatal errors with the fields of their records (R90, R94). Entering one writes `status`
(`Machine.raise`, R96); a `step` of a machine that is already FAULTED answers `.fault` with the record (log entry
1). A claim should rest on the kind alone, since the fields are the spec's own choice (D7, log entry 8). -/
inductive Fault where
  /-- InvalidOpcode, code 1: raised by the decoder at address `addr` on a byte that is none of 0x01 to 0x04 (R91).
  Safe: the spec's own fault. -/
  | invalidOpcode (addr : Nat) (byte : Byte)
  /-- IndexOutOfRange, code 2: raised by the decoder and the encoder on a memory address of 64 or more (R92), and by
  ADD, SUB, `set_register` and `get_register` on a register index other than 0 and 1 (R93).
  Safe: the spec's own fault. -/
  | indexOutOfRange (space : Space) (index : Nat)
  deriving DecidableEq, Repr

/-- What the model answers where it does not act. -/
inductive Refusal where
  /-- An instruction without a meaning. No arm of `exec` answers it: every instruction is modelled. Safe. -/
  | notModelled (mnemonic : String)
  /-- A host operation other than `new()` on a FAULTED machine, raised by `hostCall`: the spec refuses it
  (45_sequencer.md R75). Safe: the spec's own refusal. -/
  | machineFaulted
  deriving DecidableEq, Repr

/-- The `status` component (10_state.md R30). -/
inductive Status where
  /-- RUNNABLE: no fault since reset. -/
  | runnable
  /-- FAULTED with the record of the first fault; left only by `new()` (R30, R100). -/
  | faulted (record : Fault)
  deriving DecidableEq, Repr

/-- Memory as (address, byte) pairs in one canonical form (`Memory.wf`): an address of memory that is not listed
reads as 0x00, the reset contents (R110). -/
abbrev Memory := List Host.Cell

/-- The whole state of the CORE (10_state.md R16), and the model's own counter of free values. -/
structure State where
  /-- `MEM`, 64 bytes (R17). -/
  mem : Memory
  /-- `R[0]`, the accumulator (R19, R20). -/
  r0 : Byte
  /-- `R[1]` (R19). -/
  r1 : Byte
  /-- The program counter: the address of the next instruction to fetch (R24, R25). -/
  pc : Byte
  /-- RUNNABLE or FAULTED (R30). -/
  status : Status
  /-- The result bytes the run loop has emitted, oldest first (R31). -/
  trace : List Byte
  /-- THE MODEL'S OWN, not the spec's: how many free values have been drawn (log entry 5). -/
  freeIndex : Nat
  deriving DecidableEq, Repr

/-- The state after `new()` (70_reset_and_hazards.md R110): memory all 0x00, registers 0, `pc` 0, RUNNABLE, no
trace. The value of `freeIndex` is a DESIGN CHOICE (log entry 5). -/
def State.reset : State :=
  { mem := [], r0 := 0, r1 := 0, pc := 0, status := .runnable, trace := [], freeIndex := 0 }

/-- What executing one instruction gives where it does not fault: the state it leaves and its result byte
(45_sequencer.md R81). -/
structure Executed where
  state : State
  result : Byte
  deriving DecidableEq, Repr

/-- The host operations with their inputs (45_sequencer.md R74). Addresses and register indices are unbounded
naturals and register values are bytes (D13). -/
inductive HostOp where
  | new
  | setRegister (index : Nat) (value : Byte)
  | getRegister (index : Nat)
  | loadCommand (address : Nat) (instr : Instr)
  | fetchCommandAt (address : Nat)
  | executeCommandAt (address : Nat)
  /-- `execute_command()`, watched for at most `bound` iterations of its loop. The operation itself has no bound
  (R88): a call that has not returned by then answers `HostResult.stillRunning` (log entry 6). -/
  | executeCommand (bound : Nat)
  deriving DecidableEq, Repr

/-- What a host operation returns (R74, output column). -/
inductive HostValue where
  | nothing
  | byte (b : Byte)
  | command (instr : Instr) (width : Nat)
  deriving DecidableEq, Repr

/-- How a host operation ends. -/
inductive HostResult where
  /-- It completes, with its output and the state it leaves. -/
  | returned (value : HostValue) (s : State)
  /-- It faults: the fault outcome in place of its output, and the FAULTED state it leaves (60_exceptions.md R96). -/
  | faulted (record : Fault) (s : State)
  /-- It is refused and has no effect (45_sequencer.md R75). -/
  | refused (why : Refusal)
  /-- Only `execute_command()`: after `bound` iterations it has neither halted nor faulted; the state so far. -/
  | stillRunning (s : State)
  deriving DecidableEq, Repr

/-- How far a host that calls operations one after another has come. An operation begins only when the one before it
has completed (00_scope.md R12, 20_memory.md R44). -/
inductive HostProgress where
  /-- Every operation has completed, by returning, by faulting or by being refused; the state they leave. -/
  | idle (s : State)
  /-- Inside an `execute_command()` that has not ended within the iterations watched: the state so far, and the
  operations after it, none of which has begun. Nothing cancels the call (45_sequencer.md R88). -/
  | busy (s : State) (rest : List HostOp)
  deriving DecidableEq, Repr

end Sys2Proof.Machine
end

