-- ==== Sys2Proof/Machine/Flags.lean ====
section
/-!
DEFINITION. The ALU's results (spec 40_arithmetic.md R65). The CORE has NO flags: no operation computes a carry,
a borrow, an overflow or a zero bit (10_state.md R32), so the result byte is all there is.
-/

namespace Sys2Proof.Machine

/-- `ALU(ADD, a, b)`: the sum modulo 256 (R65). -/
def aluAdd (a b : Byte) : Byte := BitVec.ofNat 8 ((a.toNat + b.toNat) % 256)

/-- `ALU(SUB, a, b)`: the integer difference reduced into 0..255 (R65). -/
def aluSub (a b : Byte) : Byte := BitVec.ofNat 8 (((a.toNat : Int) - (b.toNat : Int)) % 256).toNat

end Sys2Proof.Machine
end

