-- ==== Sys2Proof/Machine/Ops.lean ====
section
/-!
DEFINITION. The named operations over memory, the register file, the trace and the status: every read and write of
State goes through one of these. Entering a fault is `raise`.
-/

namespace Sys2Proof.Machine

/-! ## Memory (spec 20_memory.md) -/

/-- What an address of memory that is not listed reads as: 0x00, the reset contents (70_reset_and_hazards.md R110,
20_memory.md R46). -/
abbrev unlistedByte : Byte := 0x00#8

/-- The canonical form of a memory whose addresses all lie at or above `lo`: addresses strictly rising and below
MEM_SIZE, and no byte equal to what an unlisted address reads as. -/
def Memory.wfFrom : Nat → Memory → Bool
  | _, [] => true
  | lo, (a, b) :: m =>
    decide (lo ≤ a) && decide (a < memSize) && decide (b ≠ unlistedByte) && Memory.wfFrom (a + 1) m

/-- The canonical form of the memory, in which equal contents are equal data. -/
def Memory.wf (m : Memory) : Bool := Memory.wfFrom 0 m

/-- The byte at an address, without the bounds check. -/
def memGet : Memory → Nat → Byte
  | [], _ => unlistedByte
  | (a, b) :: m, k => if a = k then b else memGet m k

/-- The memory with one byte changed, without the bounds check; it keeps the canonical form. -/
def memSet : Memory → Nat → Byte → Memory
  | [], k, v => if v = unlistedByte then [] else [(k, v)]
  | (a, b) :: m, k, v =>
    if a < k then (a, b) :: memSet m k v
    else if a = k then (if v = unlistedByte then m else (k, v) :: m)
    else (if v = unlistedByte then (a, b) :: m else (k, v) :: (a, b) :: m)

/-- `MemRead(a, 1)` (20_memory.md R40): the byte at `a`, or IndexOutOfRange when `a ≥ MEM_SIZE` (R39). -/
def memRead (m : Memory) (a : Nat) : Except Fault Byte :=
  if memSize ≤ a then .error (.indexOutOfRange .mem a) else .ok (memGet m a)

/-- `MemWrite(a, 1, v)` (R40): the byte at `a` becomes `v`, or IndexOutOfRange when `a ≥ MEM_SIZE` (R39). -/
def memWrite (m : Memory) (a : Nat) (v : Byte) : Except Fault Memory :=
  if memSize ≤ a then .error (.indexOutOfRange .mem a) else .ok (memSet m a v)

/-- The encoder's writes (30_encoding.md R61): bytes one by one at rising addresses from `a`. The first address
outside memory faults. -/
def storeBytes : Memory → Nat → List Byte → Except Fault Memory
  | m, _, [] => .ok m
  | m, a, b :: bs =>
    match memWrite m a b with
    | .error f => .error f
    | .ok m' => storeBytes m' (a + 1) bs

/-- The memory a failed encoder write of `n` bytes from `a` leaves (60_exceptions.md R98): every byte below MEM_SIZE
that the write covers is a free value, the `j`-th, the `j+1`-th, …; every other byte is kept. -/
def freeBytes : Memory → Nat → Nat → Nat → Memory
  | m, _, 0, _ => m
  | m, a, n + 1, j =>
    freeBytes (if a < memSize then memSet m a (Config.freeByte j) else m) (a + 1) n (j + 1)

/-- The bytes that exist at the addresses `a`, `a+1`, …, at most `n` of them: what the decoder can read from `a` on.
Reading has no side effect (20_memory.md R44). -/
def codeBytes (m : Memory) : Nat → Nat → List Byte
  | _, 0 => []
  | a, n + 1 =>
    match memRead m a with
    | .error _ => []
    | .ok b => b :: codeBytes m (a + 1) n

/-- Bytes placed from `a` on, those that would lie outside memory left out. NOT an operation of the machine: the
host's stand-in for a loaded program (`State.withFetchWord`, log entry 3). -/
def placeBytes : Memory → Nat → List Byte → Memory
  | m, _, [] => m
  | m, a, b :: bs => placeBytes (if a < memSize then memSet m a b else m) (a + 1) bs

/-! ## The register file (10_state.md R19, R23) -/

/-- `R[i]`: register `i`, or IndexOutOfRange on REG when `i` is not 0 or 1 (60_exceptions.md R93). -/
def regRead (s : State) (i : Nat) : Except Fault Byte :=
  if i = 0 then .ok s.r0
  else if i = 1 then .ok s.r1
  else .error (.indexOutOfRange .reg i)

/-- `R[i] <- v` by the host's write port (R23), or IndexOutOfRange on REG. -/
def regWrite (s : State) (i : Nat) (v : Byte) : Except Fault State :=
  if i = 0 then .ok { s with r0 := v }
  else if i = 1 then .ok { s with r1 := v }
  else .error (.indexOutOfRange .reg i)

/-- `wr0(v)`: the ALU's write port, whose index is fixed at 0 (R20, R23). -/
def wr0 (s : State) (v : Byte) : State := { s with r0 := v }

/-! ## Program counter, trace, status -/

/-- `pc <- t` (10_state.md R26). -/
def setPc (s : State) (t : Byte) : State := { s with pc := t }

/-- `emit(b)`: the run loop appends one trace event (10_state.md R31). -/
def emit (s : State) (b : Byte) : State := { s with trace := s.trace ++ [b] }

/-- Halted: `pc ≥ MEM_SIZE`, a function of `pc` alone (10_state.md R29). -/
def halted (s : State) : Bool := decide (memSize ≤ s.pc.toNat)

/-- TAKING A FAULT (60_exceptions.md R96): `status <- FAULTED(record)` and nothing else. There is no saved pc, vector,
handler or mode change, and no return from it but `new()` (R100). -/
def raise (f : Fault) (s : State) : State := { s with status := .faulted f }

/-- The numeric code of a fault (60_exceptions.md R94). -/
def faultCode : Fault → Nat
  | .invalidOpcode _ _ => 1
  | .indexOutOfRange _ _ => 2

end Sys2Proof.Machine
end

