-- ==== Sys2Proof/Machine/Operands.lean ====
section
/-!
DEFINITION. The operand forms (spec 30_encoding.md R57): direct register index and absolute address. There are no
others.
-/

namespace Sys2Proof.Machine

/-- The operand of a register-index byte: the register it names, the index used as it stands (R57; the read ports
`rdx` and `rdy` of 10_state.md R23). -/
def regOperand (s : State) (x : Byte) : Except Fault Byte := regRead s x.toNat

/-- The two operands of ADD and SUB, `x` read before `y` (60_exceptions.md R99, D17). -/
def regOperands (s : State) (x y : Byte) : Except Fault (Byte × Byte) :=
  match regOperand s x with
  | .error f => .error f
  | .ok vx =>
    match regOperand s y with
    | .error f => .error f
    | .ok vy => .ok (vx, vy)

/-- The target of JMP: an absolute address, used as it stands, unchecked (R57, 41_control.md R71). -/
def jumpTarget (t : Byte) : Byte := t

end Sys2Proof.Machine
end

