-- ==== Sys2Proof/Machine/Sequencer.lean ====
section
/-!
DEFINITION. The PC sequencer and the run loop's own actions around one instruction (spec 45_sequencer.md R82 to R89).
-/

namespace Sys2Proof.Machine

/-- `NextPC(a, instr, w)` with `w` the instruction's width (R82): the target for JMP, `a + w` otherwise, chosen by the
kind of instruction. `a + w` fits in 8 bits for every instruction that decodes at `a` (R83); called on another
address it wraps (DESIGN CHOICE, log entry 7). -/
def nextPc (a : Byte) : Instr → Byte
  | .add x y => a + BitVec.ofNat 8 (instrWidth (.add x y))
  | .sub x y => a + BitVec.ofNat 8 (instrWidth (.sub x y))
  | .nop => a + BitVec.ofNat 8 (instrWidth .nop)
  | .jmp t => t

/-- The run loop after it has executed instruction `i` from state `s` (R84, R89). A fault is entered from `s` and
nothing is emitted (R86, R97); otherwise one event carries the result byte, and `pc` becomes NextPC of the
instruction's own address. -/
def retire (i : Instr) (s : State) : Except Fault Executed → Host.Outcome State Fault Refusal
  | .error f => .next (raise f s)
  | .ok e => .next (setPc (emit e.state e.result) (nextPc s.pc i))

/-- A step of a halted run: the run is over and the state is final (R87, R89); nothing changes (log entry 2). -/
def haltedStep (s : State) : Host.Outcome State Fault Refusal := .next s

/-- A step of a FAULTED machine: it stays stopped, with the fault outcome that R96 returns to the host (log entry
1). -/
def faultedStep (f : Fault) : Host.Outcome State Fault Refusal := .fault f

end Sys2Proof.Machine
end

