-- ==== Sys2Proof/Machine/Arithmetic.lean ====
section
/-!
DEFINITION. The arithmetic family: ADD and SUB (spec 40_arithmetic.md). `bodyAdd` and `bodySub` are the pseudocode of
R67 and R68; `execAdd` and `execSub` put the run loop's emit and pc advance around them (45_sequencer.md R84).
-/

namespace Sys2Proof.Machine

/-- `R[0] <- res; return res`, the common end of ADD and SUB (R67, R68): one write port, fixed at register 0. -/
def writeBack (s : State) (res : Byte) : Executed := { state := wr0 s res, result := res }

/-- The body of ADD (R67): both registers are read before `R[0]` is written, and a bad index faults before anything
is written. -/
def bodyAdd (x y : Byte) (s : State) : Except Fault Executed :=
  match regOperands s x y with
  | .error f => .error f
  | .ok v => .ok (writeBack s (aluAdd v.1 v.2))

/-- The body of SUB (R68): `R[x] - R[y]`, to `R[0]`. -/
def bodySub (x y : Byte) (s : State) : Except Fault Executed :=
  match regOperands s x y with
  | .error f => .error f
  | .ok v => .ok (writeBack s (aluSub v.1 v.2))

/-- ADD in the run loop (R67, R84). -/
def execAdd (x y : Byte) (s : State) : Host.Outcome State Fault Refusal :=
  retire (.add x y) s (bodyAdd x y s)

/-- SUB in the run loop (R68, R84). -/
def execSub (x y : Byte) (s : State) : Host.Outcome State Fault Refusal :=
  retire (.sub x y) s (bodySub x y s)

end Sys2Proof.Machine
end

