-- ==== Sys2Proof/Machine/Control.lean ====
section
/-!
DEFINITION. The control family: NOP and JMP (spec 41_control.md).
-/

namespace Sys2Proof.Machine

/-- The body of NOP (R70): no state is written and the result byte is 0. -/
def bodyNop (s : State) : Except Fault Executed := .ok { state := s, result := 0 }

/-- The body of JMP (R71): `pc <- target`, with no check against MEM_SIZE, and the result byte is 0. -/
def bodyJmp (t : Byte) (s : State) : Except Fault Executed :=
  .ok { state := setPc s (jumpTarget t), result := 0 }

/-- NOP in the run loop (R70, R84). -/
def execNop (s : State) : Host.Outcome State Fault Refusal := retire .nop s (bodyNop s)

/-- JMP in the run loop (R71, R84): `pc` is not advanced by the width. -/
def execJmp (t : Byte) (s : State) : Host.Outcome State Fault Refusal := retire (.jmp t) s (bodyJmp t s)

end Sys2Proof.Machine
end

