-- ==== Sys2Proof/Machine/Dispatch.lean ====
section
/-!
DEFINITION. One arm per instruction: the run loop's iteration once the instruction is decoded (spec 45_sequencer.md R84).
-/

namespace Sys2Proof.Machine

def exec (i : Instr) (s : State) : Host.Outcome State Fault Refusal :=
  match i with
  | .add x y => Sys2Proof.Machine.execAdd x y s
  | .sub x y => Sys2Proof.Machine.execSub x y s
  | .nop => Sys2Proof.Machine.execNop s
  | .jmp t => Sys2Proof.Machine.execJmp t s

end Sys2Proof.Machine
end

