-- ==== Sys2Proof/Machine/Fetch.lean ====
section
/-!
DEFINITION. `Decode(a)` over the machine's memory (spec 30_encoding.md R58).
-/

namespace Sys2Proof.Machine

/-- The fault a failed decode at address `a` raises: InvalidOpcode with the address and the byte (60_exceptions.md
R91), or IndexOutOfRange on MEM with the first address that does not exist (R92). -/
def decodeFault (a : Nat) : DecodeError → Fault
  | .illegal op => .invalidOpcode a op
  | .missing k => .indexOutOfRange .mem (a + k)

/-- `Decode(a)` (R58): the instruction at address `a` and its width, or the first fault in the order of
60_exceptions.md R99. It reads memory and writes nothing (R59). -/
def decodeAt (m : Memory) (a : Nat) : Except Fault (Instr × Nat) :=
  match decode (codeBytes m a 3) with
  | .error e => .error (decodeFault a e)
  | .ok r => .ok r

end Sys2Proof.Machine
end

