-- ==== Sys2Proof/Machine/Step.lean ====
section
/-!
DEFINITION. One step of the run loop (spec 45_sequencer.md R89), and the host's placement of one instruction where the
step fetches.
-/

namespace Sys2Proof.Machine

/-- One iteration of the run loop (R84, R89). A FAULTED machine stays stopped; a halted run stays as it is; otherwise
the instruction at `pc` is decoded, a decode fault is entered (R96), and a decoded instruction is executed. -/
def step (s : State) : Host.Outcome State Fault Refusal :=
  match s.status with
  | .faulted f => faultedStep f
  | .runnable =>
    if halted s then haltedStep s
    else
      match decodeAt s.mem s.pc.toNat with
      | .error f => .next (raise f s)
      | .ok (i, _) => exec i s

/-- `s` with an instruction word of the opcode table at the address `pc` holds, where `step` fetches: the effect of the
host's `load_command` there (log entry 3). Only memory changes. -/
def State.withFetchWord (s : State) (nbits w : Nat) : State :=
  { s with mem := placeBytes s.mem s.pc.toNat (wordBytes nbits w) }

end Sys2Proof.Machine
end

