-- ==== Sys2Proof/Machine/Assembly.lean ====
section
/-!
DEFINITION. The assembly notation of spec 30_encoding.md R64: reading a line of text, and assembling lines into a
memory image. It is notation for programs and has no effect on behaviour (D8).
-/

namespace Sys2Proof.Machine

/-! ## Numbers: decimal or `0x` hexadecimal, from 0 to 255 -/

/-- The value of a digit in a base of at most 16; a hexadecimal digit may be a small or a capital letter (DESIGN CHOICE,
log entry 18). -/
def asmDigit (base : Nat) (c : Char) : Option Nat :=
  let n := c.toNat
  let d := if 48 ≤ n ∧ n ≤ 57 then n - 48
    else if 97 ≤ n ∧ n ≤ 102 then n - 87
    else if 65 ≤ n ∧ n ≤ 70 then n - 55
    else base
  if d < base then some d else none

/-- The value of a run of digits read after the value `acc`. -/
def asmDigits (base : Nat) : Nat → List Char → Option Nat
  | acc, [] => some acc
  | acc, c :: cs =>
    match asmDigit base c with
    | none => none
    | some d => asmDigits base (acc * base + d) cs

/-- A number of the notation. -/
def asmNumber (cs : List Char) : Option Byte :=
  let v := match cs with
    | '0' :: 'x' :: c :: rest => asmDigits 16 0 (c :: rest)
    | c :: rest => asmDigits 10 0 (c :: rest)
    | [] => none
  match v with
  | some n => if n < 256 then some (BitVec.ofNat 8 n) else none
  | none => none

/-! ## Lines -/

/-- The word read so far, if it is not empty. -/
def asmWord (acc : List Char) : List (List Char) := if acc.isEmpty then [] else [acc]

/-- The words of a line: blanks part them, a comma is a word of its own, and `;` begins a comment (as the programs of
95_test_vectors.md L3 write it; log entry 12). That a blank is a space or a tab is a DESIGN CHOICE (log entry 18). -/
def asmWords : List Char → List Char → List (List Char)
  | acc, [] => asmWord acc
  | acc, c :: cs =>
    if c = ';' then asmWord acc
    else if c = ' ' ∨ c = '\t' then asmWord acc ++ asmWords [] cs
    else if c = ',' then asmWord acc ++ [[',']] ++ asmWords [] cs
    else asmWords (acc ++ [c]) cs

/-- The operand of `jmp`: a number, or a label's name, which does not begin with a digit (DESIGN CHOICE, log
entry 18). -/
def asmTarget (cs : List Char) : Option AsmTarget :=
  match asmNumber cs with
  | some b => some (.num b)
  | none =>
    match cs with
    | [] => none
    | c :: _ => if c.isDigit then none else some (.label cs)

/-- The two operands `x, y` of `add` and `sub`. -/
def asmPair (x y : List Char) (mk : Byte → Byte → AsmItem) : Option AsmItem :=
  match asmNumber x, asmNumber y with
  | some a, some b => some (mk a b)
  | _, _ => none

/-- The instruction or directive of a line, from its words (R64); `none` where it is none of the five forms. -/
def asmStatement : List (List Char) → Option (List AsmItem)
  | [] => some []
  | [m] => if m = "nop".toList then some [.nop] else none
  | [m, a] =>
    if m = "jmp".toList then (asmTarget a).map fun t => [.jmp t]
    else if m = ".byte".toList then (asmNumber a).map fun b => [.byte b]
    else if m = ".org".toList then (asmNumber a).map fun n => [.org n]
    else none
  | [m, x, c, y] =>
    if c = [','] then
      if m = "add".toList then (asmPair x y .add).map fun i => [i]
      else if m = "sub".toList then (asmPair x y .sub).map fun i => [i]
      else none
    else none
  | _ => none

/-- A line of text: an optional label `name:`, then an optional instruction or directive (R64). R64 says only that
`name:` stands at the start of the line. That a blank, a comment or the line's end must follow the colon, so that
`loop:nop` is no line, is a DESIGN CHOICE (log entry 18), and so is what a name may hold. -/
def asmLine (cs : List Char) : Option (List AsmItem) :=
  match asmWords [] cs with
  | [] => some []
  | w :: ws =>
    if w.getLast? = some ':' then (asmStatement ws).map fun items => .label w.dropLast :: items
    else asmStatement (w :: ws)

/-! ## Assembling -/

/-- The address after an item that stands at `a` (R60, R64). -/
def asmAdvance (a : Nat) : AsmItem → Nat
  | .label _ => a
  | .add x y => a + instrWidth (.add x y)
  | .sub x y => a + instrWidth (.sub x y)
  | .nop => a + instrWidth .nop
  | .jmp _ => a + 2
  | .byte _ => a + 1
  | .org n => n.toNat

/-- Every label with its address, when the items are placed from address `a` on. They are found before any byte is
placed, so a label may stand after the `jmp` that names it (DESIGN CHOICE, log entry 18). -/
def asmLabels : Nat → List AsmItem → List (AsmName × Nat)
  | _, [] => []
  | a, it :: its =>
    match it with
    | .label n => (n, a) :: asmLabels a its
    | .add _ _ => asmLabels (asmAdvance a it) its
    | .sub _ _ => asmLabels (asmAdvance a it) its
    | .nop => asmLabels (asmAdvance a it) its
    | .jmp _ => asmLabels (asmAdvance a it) its
    | .byte _ => asmLabels (asmAdvance a it) its
    | .org _ => asmLabels (asmAdvance a it) its

/-- The bytes of an item; `none` where a label is unknown or its address is no byte. -/
def asmBytes (labels : List (AsmName × Nat)) : AsmItem → Option (List Byte)
  | .label _ => some []
  | .add x y => some (encode (.add x y))
  | .sub x y => some (encode (.sub x y))
  | .nop => some (encode .nop)
  | .jmp (.num t) => some (encode (.jmp t))
  | .jmp (.label n) =>
    match labels.lookup n with
    | some a => if a < 256 then some (encode (.jmp (BitVec.ofNat 8 a))) else none
    | none => none
  | .byte b => some [b]
  | .org _ => some []

/-- The image of the items placed from address `a` on over the memory `m`; `none` where a byte would lie outside
memory or a label has no address, and of two bytes placed at one address the later one stands (DESIGN CHOICE, log
entry 18). -/
def asmImage (labels : List (AsmName × Nat)) : Nat → List AsmItem → Memory → Option Memory
  | _, [], m => some m
  | a, it :: its, m =>
    match asmBytes labels it with
    | none => none
    | some bs =>
      match storeBytes m a bs with
      | .error _ => none
      | .ok m' => asmImage labels (asmAdvance a it) its m'

/-- The memory image of a program over zeroed memory (95_test_vectors.md L3: bytes not listed are 00). R64 does not say
where the bytes of a program without a leading `.org` begin, and every program of L3 writes `.org 0`; that they begin at
address 0 is a DESIGN CHOICE (log entry 18). -/
def assemble (items : List AsmItem) : Option Memory := asmImage (asmLabels 0 items) 0 items []

end Sys2Proof.Machine
end

