-- ==== Sys2Proof/Machine/HostOps.lean ====
section
/-!
DEFINITION. The host interface (spec 45_sequencer.md R74 to R88): each operation is one atomic transition of the state
(D1).
-/

namespace Sys2Proof.Machine

/-- `Execute(instr)` (R81): the instruction's own effect and its result byte, without the run loop's emit and advance. -/
def execute (i : Instr) (s : State) : Except Fault Executed :=
  match i with
  | .add x y => bodyAdd x y s
  | .sub x y => bodySub x y s
  | .nop => bodyNop s
  | .jmp t => bodyJmp t s

/-- The end of an operation that raises `f` in state `s` (60_exceptions.md R96): the fault outcome, and the machine
FAULTED. -/
def hostFault (f : Fault) (s : State) : HostResult := .faulted f (raise f s)

/-- `new()` (70_reset_and_hazards.md R110): the reset state, from any state. The model's own counter of free values
goes on counting, so that no two free values are ever the same one (log entry 5). -/
def hostNew (s : State) : HostResult :=
  .returned .nothing { State.reset with freeIndex := s.freeIndex }

/-- `set_register(index, value)` (R77). -/
def hostSetRegister (i : Nat) (v : Byte) (s : State) : HostResult :=
  match regWrite s i v with
  | .error f => hostFault f s
  | .ok s' => .returned .nothing s'

/-- `get_register(index)` (R78); it writes no state. -/
def hostGetRegister (i : Nat) (s : State) : HostResult :=
  match regRead s i with
  | .error f => hostFault f s
  | .ok v => .returned (.byte v) s

/-- The state a failed `Encode` of `n` bytes at `a` leaves, but for its status (60_exceptions.md R98): each byte of
memory that the failed write covers is a free value. -/
def scramble (a n : Nat) (s : State) : State :=
  { s with mem := freeBytes s.mem a n s.freeIndex, freeIndex := s.freeIndex + n }

/-- `load_command(address, instruction)`, the encoder (R79, 30_encoding.md R61): the one operation that writes MEM. It
checks no operand. -/
def hostLoadCommand (a : Nat) (i : Instr) (s : State) : HostResult :=
  match storeBytes s.mem a (encode i) with
  | .error f => hostFault f (scramble a (instrWidth i) s)
  | .ok m => .returned .nothing { s with mem := m }

/-- `fetch_command_at(address)`, the decoder as a query (R80): the instruction and its width. -/
def hostFetchCommandAt (a : Nat) (s : State) : HostResult :=
  match decodeAt s.mem a with
  | .error f => hostFault f s
  | .ok (i, w) => .returned (.command i w) s

/-- `execute_command_at(address)` (R81): decode there and execute, with no emit and no advance; the result byte is the
return value (D11). It does not read `pc`. -/
def hostExecuteCommandAt (a : Nat) (s : State) : HostResult :=
  match decodeAt s.mem a with
  | .error f => hostFault f s
  | .ok (i, _) =>
    match execute i s with
    | .error f => hostFault f s
    | .ok e => .returned (.byte e.result) e.state

/-- `execute_command()` (R84) watched for at most `n` iterations: it returns when an iteration starts halted, ends in
the fault outcome when an iteration faults, and is still running otherwise (R87, R88; log entry 6). -/
def hostExecuteCommand : Nat → State → HostResult
  | 0, s => if halted s then .returned .nothing s else .stillRunning s
  | n + 1, s =>
    if halted s then .returned .nothing s
    else
      match step s with
      | .next t =>
        match t.status with
        | .runnable => hostExecuteCommand n t
        | .faulted f => .faulted f t
      | .fault f => .faulted f s
      | .refused r => .refused r

/-- An operation on a machine that is not FAULTED; on a FAULTED one it is refused and has no effect (R75). -/
def ifRunnable (s : State) (r : HostResult) : HostResult :=
  match s.status with
  | .runnable => r
  | .faulted _ => .refused .machineFaulted

/-- Every host operation (R74). `new()` is the one that a FAULTED machine accepts (R75); halting restricts none (R76). -/
def hostCall (op : HostOp) (s : State) : HostResult :=
  match op with
  | .new => hostNew s
  | .setRegister i v => ifRunnable s (hostSetRegister i v s)
  | .getRegister i => ifRunnable s (hostGetRegister i s)
  | .loadCommand a i => ifRunnable s (hostLoadCommand a i s)
  | .fetchCommandAt a => ifRunnable s (hostFetchCommandAt a s)
  | .executeCommandAt a => ifRunnable s (hostExecuteCommandAt a s)
  | .executeCommand n => ifRunnable s (hostExecuteCommand n s)

/-- The state that an answer to an operation called in state `s` shows: the state the operation leaves when it has
completed, and the state so far when it is still running. -/
def stateAfter (s : State) : HostResult → State
  | .returned _ t => t
  | .faulted _ t => t
  | .refused _ => s
  | .stillRunning t => t

/-- A host that calls operations one after another (00_scope.md R12). The next operation begins where the last one
completed; inside an `execute_command()` that has not ended none begins, since every operation is atomic
(20_memory.md R44) and nothing cancels a run (45_sequencer.md R88; log entry 6). -/
def hostDrive : List HostOp → State → HostProgress
  | [], s => .idle s
  | op :: ops, s =>
    match hostCall op s with
    | .returned _ t => hostDrive ops t
    | .faulted _ t => hostDrive ops t
    | .refused _ => hostDrive ops s
    | .stillRunning t => .busy t ops

/-- The machine's state at that point of the host's calls. -/
def HostProgress.state : HostProgress → State
  | .idle s => s
  | .busy s _ => s

end Sys2Proof.Machine
end

