-- ==== Sys2Proof/Safety.lean ====
section
/-!
DEFINITION. What counts as a safe run, how runs end (spec 45_sequencer.md R87, R88), and the invariant of the machine's
states, in the terms the statements use.
-/

namespace Sys2Proof.Machine

/-- A fault record says what its causes say (60_exceptions.md R91 to R94): InvalidOpcode names an address of memory and
the byte there, which is no opcode; IndexOutOfRange names an index outside the array. -/
def Fault.legal (m : Memory) : Fault → Bool
  | .invalidOpcode a b =>
    decide (a < memSize) && decide (memGet m a = b)
      && decide (b ≠ opAdd) && decide (b ≠ opSub) && decide (b ≠ opNop) && decide (b ≠ opJmp)
  | .indexOutOfRange .mem i => decide (memSize ≤ i)
  | .indexOutOfRange .reg i => decide (numRegs ≤ i)

/-- The status is RUNNABLE, or FAULTED with a record that its causes can write. -/
def Status.legal (m : Memory) : Status → Bool
  | .runnable => true
  | .faulted f => Fault.legal m f

/-- The invariant of the machine's states: memory in its canonical form, and a legal status. -/
def State.Inv (s : State) : Bool := Memory.wf s.mem && Status.legal s.mem s.status

/-- A run from `s` that never faults, however many steps it makes. -/
def SafeRun (s : State) : Prop :=
  ∀ n, ∃ t, Host.Core.run Sys2Proof.core n s = .next t ∧ t.status = .runnable

/-- A call of `execute_command()` that halts (R87, way 1). -/
def Halts (s : State) : Prop := ∃ n t, hostExecuteCommand n s = .returned .nothing t

/-- A call of `execute_command()` that faults (R87, way 2). -/
def Faults (s : State) : Prop := ∃ n f t, hostExecuteCommand n s = .faulted f t

/-- A call of `execute_command()` that never ends (R87, way 3; R88). -/
def Hangs (s : State) : Prop := ∀ n, ∃ t, hostExecuteCommand n s = .stillRunning t

/-- The addresses `P` are code that cannot fault (70_reset_and_hazards.md R113, steps 2 and 4): at each of them an
instruction decodes whose register indices are 0 or 1, and the address that follows it is in `P` or ends the run. -/
def CodeClosed (m : Memory) (P : Nat → Prop) : Prop :=
  ∀ a, P a → ∃ i w, decodeAt m a = .ok (i, w) ∧
    match i with
    | .add x y => x.toNat < numRegs ∧ y.toNat < numRegs ∧ (P (a + w) ∨ memSize ≤ a + w)
    | .sub x y => x.toNat < numRegs ∧ y.toNat < numRegs ∧ (P (a + w) ∨ memSize ≤ a + w)
    | .nop => P (a + w) ∨ memSize ≤ a + w
    | .jmp t => P t.toNat ∨ memSize ≤ t.toNat

end Sys2Proof.Machine
end

