-- ==== Sys2Proof/Certificates/Slice0/Obligations.lean ====
section
/-!
DEFINITION. The statements for the provers. Each docstring names the rule of spec/ it formalises, or says that it rests
on a choice of the model and names its log entry.
-/

open Sys2Proof Sys2Proof.Machine

/-! ## Encoding -/

/-- 30_encoding.md R63: a list of bytes decodes to an instruction and a width exactly when it begins with the encoder's
bytes of that instruction, as many as the width; and two legal sequences that decode to the same instruction are the
same. -/
def Obligations.DecodeSucceedsExactlyOnEncodings : Prop :=
  (∀ (bs : List Byte) (i : Instr) (w : Nat),
    decode bs = .ok (i, w) ↔ w = (encode i).length ∧ ∃ rest, bs = encode i ++ rest) ∧
  (∀ (bs bs' : List Byte) (i : Instr) (w : Nat),
    decode bs = .ok (i, w) → decode bs' = .ok (i, w) → bs.length = w → bs'.length = w → bs = bs')

/-- 30_encoding.md R62: after a `load_command` that succeeds, the decoder gives back the instruction and its width, and
the query changes nothing. -/
def Obligations.LoadedInstructionDecodesBack : Prop :=
  ∀ (s t : State) (a : Nat) (i : Instr) (v : HostValue),
    Memory.wf s.mem = true → hostCall (.loadCommand a i) s = .returned v t →
      hostCall (.fetchCommandAt a) t = .returned (.command i (instrWidth i)) t

/-- 30_encoding.md R60: the encoder's lookup table, opcode byte, width and byte sequence of each kind. -/
def Obligations.EncoderTableGivesOpcodeWidthAndBytes : Prop :=
  (∀ x y : Byte, opcodeOf (.add x y) = 0x01#8 ∧ instrWidth (.add x y) = 3 ∧ encode (.add x y) = [0x01#8, x, y]) ∧
  (∀ x y : Byte, opcodeOf (.sub x y) = 0x02#8 ∧ instrWidth (.sub x y) = 3 ∧ encode (.sub x y) = [0x02#8, x, y]) ∧
  (opcodeOf .nop = 0x03#8 ∧ instrWidth .nop = 1 ∧ encode .nop = [0x03#8]) ∧
  (∀ t : Byte, opcodeOf (.jmp t) = 0x04#8 ∧ instrWidth (.jmp t) = 2 ∧ encode (.jmp t) = [0x04#8, t])

/-- 30_encoding.md R54, one word of each row of the opcode table written out by hand, first byte lowest, and two words
that are no instruction (R55). -/
def Obligations.WrittenOutWordsDecode : Prop :=
  decodeTableWord 24 0x010001 = some (.add 0x00#8 0x01#8) ∧
  decodeTableWord 24 0x000102 = some (.sub 0x01#8 0x00#8) ∧
  decodeTableWord 8 0x03 = some .nop ∧
  decodeTableWord 16 0x3D04 = some (.jmp 0x3D#8) ∧
  decodeTableWord 8 0x00 = none ∧ decodeTableWord 8 0x05 = none

/-- 20_memory.md R44, 30_encoding.md R59: an instruction that decodes decodes the same in every memory that reads the same
on its own bytes, as many as its width; and every decode, one that faults too, is the same in two memories that read the
same at its address and at the two addresses after it. -/
def Obligations.DecodeDependsOnlyOnTheInstructionBytes : Prop :=
  (∀ (m m' : Memory) (a w : Nat) (i : Instr), decodeAt m a = .ok (i, w) →
    (∀ k, k < w → memRead m' (a + k) = memRead m (a + k)) → decodeAt m' a = .ok (i, w)) ∧
  (∀ (m m' : Memory) (a : Nat),
    (∀ k, k < 3 → memRead m (a + k) = memRead m' (a + k)) → decodeAt m a = decodeAt m' a)

/-- 30_encoding.md R64, its table: each assembly form gives its bytes, whatever its operands; and one written-out line of
each form, and of `.org`, is read as that form. -/
def Obligations.AssemblyFormsGiveTheirBytes : Prop :=
  (∀ (l : List (AsmName × Nat)) (x y b : Byte),
    asmBytes l (.add x y) = some [0x01#8, x, y] ∧ asmBytes l (.sub x y) = some [0x02#8, x, y] ∧
    asmBytes l .nop = some [0x03#8] ∧ asmBytes l (.jmp (.num b)) = some [0x04#8, b] ∧
    asmBytes l (.byte b) = some [b]) ∧
  asmLine "add 0, 1".toList = some [.add 0x00#8 0x01#8] ∧ asmLine "sub 1, 0".toList = some [.sub 0x01#8 0x00#8] ∧
  asmLine "nop".toList = some [.nop] ∧ asmLine "jmp 0x3D".toList = some [.jmp (.num 0x3D#8)] ∧
  asmLine ".byte 255".toList = some [.byte 0xFF#8] ∧ asmLine ".org 61".toList = some [.org 61#8]

/-! ## Memory -/

/-- 20_memory.md R40 and R46: a write is read back, every other byte reads as before, and what nothing has written since
reset reads as 0x00. -/
def Obligations.ReadGivesTheMostRecentWrite : Prop :=
  (∀ (m m' : Memory) (a : Nat) (v : Byte), Memory.wf m = true → memWrite m a v = .ok m' →
    memRead m' a = .ok v ∧ ∀ b, b ≠ a → memRead m' b = memRead m b) ∧
  (∀ a, a < memSize → memRead State.reset.mem a = .ok 0x00#8)

/-- The canonical form is one form (the model's representation of 10_state.md R17): memories in it that read the same at
every address are equal. -/
def Obligations.EqualReadsMeanEqualMemories : Prop :=
  ∀ m m' : Memory, Memory.wf m = true → Memory.wf m' = true →
    (∀ a, a < memSize → memRead m a = memRead m' a) → m = m'

/-- 45_sequencer.md R79: `load_command` that fits in memory completes, writes the instruction's bytes and no others, and
leaves `R`, `pc` and `trace` (and the status) as they were; no other operation but `new()` changes memory. -/
def Obligations.LoadCommandWritesExactlyTheEncoding : Prop :=
  (∀ (s : State) (a : Nat) (i : Instr), s.status = .runnable → Memory.wf s.mem = true → a + instrWidth i ≤ memSize →
    ∃ t, hostCall (.loadCommand a i) s = .returned .nothing t ∧
      (∀ k, k < instrWidth i → (encode i)[k]? = (memRead t.mem (a + k)).toOption) ∧
      (∀ b, b < a ∨ a + instrWidth i ≤ b → memRead t.mem b = memRead s.mem b) ∧
      t.r0 = s.r0 ∧ t.r1 = s.r1 ∧ t.pc = s.pc ∧ t.trace = s.trace ∧ t.status = s.status ∧
      t.freeIndex = s.freeIndex) ∧
  (∀ (s : State) (op : HostOp), op ≠ .new → (∀ a i, op ≠ .loadCommand a i) →
    (stateAfter s (hostCall op s)).mem = s.mem)

/-! ## The ALU, ADD and SUB -/

/-- 40_arithmetic.md R66: read as two's-complement bytes, the ALU's results are the signed sum and difference, wrapped to
8 bits. -/
def Obligations.AluDoesNotTellSignedFromUnsigned : Prop :=
  ∀ a b : Byte, (aluAdd a b).toInt = (a.toInt + b.toInt).bmod 256 ∧
    (aluSub a b).toInt = (a.toInt - b.toInt).bmod 256

/-- 40_arithmetic.md R67: the encoding of ADD, its result for valid indices (in `R[0]` and as the result byte, everything
else kept, the two orders of the operands alike), the run loop's advance by 3, and its faults, which are raised before
anything is written. -/
def Obligations.AddFollowsItsRule : Prop :=
  ∀ (x y : Byte) (s : State),
    encode (.add x y) = [0x01#8, x, y] ∧ instrWidth (.add x y) = 3 ∧
    (x.toNat < 2 → y.toNat < 2 →
      ∃ res : Byte,
        res.toNat = ((if x = 0 then s.r0 else s.r1).toNat + (if y = 0 then s.r0 else s.r1).toNat) % 256 ∧
        execute (.add x y) s = .ok { state := { s with r0 := res }, result := res } ∧
        execute (.add y x) s = execute (.add x y) s ∧
        (s.pc.toNat + 3 ≤ memSize → exec (.add x y) s =
          .next { s with r0 := res, trace := s.trace ++ [res], pc := BitVec.ofNat 8 (s.pc.toNat + 3) })) ∧
    (2 ≤ x.toNat → execute (.add x y) s = .error (.indexOutOfRange .reg x.toNat)) ∧
    (x.toNat < 2 → 2 ≤ y.toNat → execute (.add x y) s = .error (.indexOutOfRange .reg y.toNat)) ∧
    (∀ (a w : Nat) (f : Fault), s.status = .runnable → decodeAt s.mem a = .ok (.add x y, w) →
      execute (.add x y) s = .error f →
      hostCall (.executeCommandAt a) s = .faulted f { s with status := .faulted f })

/-- 40_arithmetic.md R68: the same for SUB, whose operands' order matters: `R[x] - R[y]`, reduced into 0..255, and 0 when
the two operands are the same register. -/
def Obligations.SubFollowsItsRule : Prop :=
  ∀ (x y : Byte) (s : State),
    encode (.sub x y) = [0x02#8, x, y] ∧ instrWidth (.sub x y) = 3 ∧
    (x.toNat < 2 → y.toNat < 2 →
      ∃ res : Byte,
        (res.toNat : Int) =
          (((if x = 0 then s.r0 else s.r1).toNat : Int) - ((if y = 0 then s.r0 else s.r1).toNat : Int)) % 256 ∧
        (x = y → res = 0) ∧
        execute (.sub x y) s = .ok { state := { s with r0 := res }, result := res } ∧
        (s.pc.toNat + 3 ≤ memSize → exec (.sub x y) s =
          .next { s with r0 := res, trace := s.trace ++ [res], pc := BitVec.ofNat 8 (s.pc.toNat + 3) })) ∧
    (2 ≤ x.toNat → execute (.sub x y) s = .error (.indexOutOfRange .reg x.toNat)) ∧
    (x.toNat < 2 → 2 ≤ y.toNat → execute (.sub x y) s = .error (.indexOutOfRange .reg y.toNat)) ∧
    (∀ (a w : Nat) (f : Fault), s.status = .runnable → decodeAt s.mem a = .ok (.sub x y, w) →
      execute (.sub x y) s = .error f →
      hostCall (.executeCommandAt a) s = .faulted f { s with status := .faulted f })

/-- ADD and SUB complete in the run loop, and their frame: with both indices valid and the instruction inside memory, the
next state has the sum or difference in `R[0]`, that byte emitted, `pc` 3 further without wrapping, and `R[1]`, every
byte of memory and the status as before (R67, R68, R84). -/
def Obligations.ArithmeticCompletesInTheRunLoop : Prop :=
  ∀ (x y : Byte) (s : State), s.status = .runnable → x.toNat < 2 → y.toNat < 2 → s.pc.toNat + 3 ≤ memSize →
    (∃ t, exec (.add x y) s = .next t ∧
      t.r0.toNat = ((if x = 0 then s.r0 else s.r1).toNat + (if y = 0 then s.r0 else s.r1).toNat) % 256 ∧
      t.trace = s.trace ++ [t.r0] ∧ t.pc.toNat = s.pc.toNat + 3 ∧ t.r1 = s.r1 ∧ t.status = .runnable ∧
      t.freeIndex = s.freeIndex ∧ ∀ a, memRead t.mem a = memRead s.mem a) ∧
    (∃ t, exec (.sub x y) s = .next t ∧
      (t.r0.toNat : Int) =
        (((if x = 0 then s.r0 else s.r1).toNat : Int) - ((if y = 0 then s.r0 else s.r1).toNat : Int)) % 256 ∧
      t.trace = s.trace ++ [t.r0] ∧ t.pc.toNat = s.pc.toNat + 3 ∧ t.r1 = s.r1 ∧ t.status = .runnable ∧
      t.freeIndex = s.freeIndex ∧ ∀ a, memRead t.mem a = memRead s.mem a)

/-- ADD and SUB with a register index that is not 0 or 1 enter the fault (40_arithmetic.md R67, R68; 60_exceptions.md R93,
R96, R99): the record names `x` if `x` is bad and `y` otherwise, and nothing but the status changes. That the entry is
a next state of `exec` is the model's choice (log entry 1). -/
def Obligations.ArithmeticWithBadIndexEntersTheFault : Prop :=
  ∀ (x y : Byte) (s : State), 2 ≤ x.toNat ∨ 2 ≤ y.toNat →
    exec (.add x y) s = .next { s with
      status := .faulted (.indexOutOfRange .reg (if 2 ≤ x.toNat then x.toNat else y.toNat)) } ∧
    exec (.sub x y) s = .next { s with
      status := .faulted (.indexOutOfRange .reg (if 2 ≤ x.toNat then x.toNat else y.toNat)) }

/-- 40_arithmetic.md R69: loading ADD or SUB at any address where it fits and executing it there sets `R[0]` to the sum or
difference modulo 256 and returns that value; with `x = y` that is `2a mod 256` for ADD and 0 for SUB. -/
def Obligations.LoadedArithmeticSetsRegisterZeroAndReturnsIt : Prop :=
  ∀ (s : State) (a : Nat) (x y va vb : Byte), s.status = .runnable → Memory.wf s.mem = true → a + 3 ≤ memSize →
    x.toNat < 2 → y.toNat < 2 → va = (if x = 0 then s.r0 else s.r1) → vb = (if y = 0 then s.r0 else s.r1) →
    (∃ s1 s2 res, hostCall (.loadCommand a (.add x y)) s = .returned .nothing s1 ∧
      hostCall (.executeCommandAt a) s1 = .returned (.byte res) s2 ∧ s2.r0 = res ∧
      res.toNat = (va.toNat + vb.toNat) % 256 ∧ (x = y → res.toNat = 2 * va.toNat % 256)) ∧
    (∃ s1 s2 res, hostCall (.loadCommand a (.sub x y)) s = .returned .nothing s1 ∧
      hostCall (.executeCommandAt a) s1 = .returned (.byte res) s2 ∧ s2.r0 = res ∧
      (res.toNat : Int) = ((va.toNat : Int) - (vb.toNat : Int)) % 256 ∧ (x = y → res = 0))

/-! ## NOP and JMP -/

/-- 41_control.md R70: the encoding of NOP, its effect (none, result byte 0), the run loop's advance by 1, that only an
address outside memory makes its decode fault, and the NOP at address 63, after which the run halts at `pc = 64`. -/
def Obligations.NopFollowsItsRule : Prop :=
  encode .nop = [0x03#8] ∧ instrWidth .nop = 1 ∧
  (∀ s : State, execute .nop s = .ok { state := s, result := 0 }) ∧
  (∀ s : State, s.pc.toNat + 1 ≤ memSize →
    exec .nop s = .next { s with trace := s.trace ++ [0], pc := BitVec.ofNat 8 (s.pc.toNat + 1) }) ∧
  (∀ (m : Memory) (a : Nat), memRead m a = .ok 0x03#8 → decodeAt m a = .ok (.nop, 1)) ∧
  (∀ s : State, s.status = .runnable → s.pc = 63#8 → memRead s.mem 63 = .ok 0x03#8 →
    ∀ n, hostCall (.executeCommand (n + 1)) s = .returned .nothing { s with trace := s.trace ++ [0], pc := 64#8 })

/-- NOP completes in the run loop, and its frame (R70, R84). -/
def Obligations.NopCompletesInTheRunLoop : Prop :=
  ∀ s : State, s.status = .runnable → s.pc.toNat + 1 ≤ memSize →
    ∃ t, exec .nop s = .next t ∧ t.pc.toNat = s.pc.toNat + 1 ∧ t.trace = s.trace ++ [0] ∧ t.r0 = s.r0 ∧
      t.r1 = s.r1 ∧ t.status = .runnable ∧ t.freeIndex = s.freeIndex ∧ ∀ a, memRead t.mem a = memRead s.mem a

/-- 41_control.md R71: the encoding of JMP; its effect, `pc <- target` with result byte 0 for every target and nothing else
written, in the run loop and alone; its decode fault at address 63; that a target outside memory halts the run without
a fault; and that a jump to itself never ends. -/
def Obligations.JmpFollowsItsRule : Prop :=
  ∀ t : Byte,
    encode (.jmp t) = [0x04#8, t] ∧ instrWidth (.jmp t) = 2 ∧
    (∀ s : State, execute (.jmp t) s = .ok { state := { s with pc := t }, result := 0 }) ∧
    (∀ s : State, exec (.jmp t) s = .next { s with trace := s.trace ++ [0], pc := t }) ∧
    (∀ m : Memory, memRead m 63 = .ok 0x04#8 → decodeAt m 63 = .error (.indexOutOfRange .mem 64)) ∧
    (∀ (s : State) (a : Nat), s.status = .runnable → memRead s.mem a = .ok 0x04#8 → memRead s.mem (a + 1) = .ok t →
      hostCall (.executeCommandAt a) s = .returned (.byte 0) { s with pc := t } ∧
      (s.pc.toNat = a → memSize ≤ t.toNat → ∀ n,
        hostCall (.executeCommand (n + 1)) s = .returned .nothing { s with trace := s.trace ++ [0], pc := t }) ∧
      (s.pc.toNat = a → t = s.pc → Hangs s))

/-- JMP completes in the run loop for every target, and its frame (R71, R84). -/
def Obligations.JmpCompletesInTheRunLoop : Prop :=
  ∀ (s : State) (t : Byte), s.status = .runnable →
    ∃ u, exec (.jmp t) s = .next u ∧ u.pc = t ∧ u.trace = s.trace ++ [0] ∧ u.r0 = s.r0 ∧ u.r1 = s.r1 ∧
      u.status = .runnable ∧ u.freeIndex = s.freeIndex ∧ ∀ a, memRead u.mem a = memRead s.mem a

/-- 41_control.md R72: a JMP to `T` loaded at the address in `pc` makes the next instruction decoded the one at `T`; where
`T` is outside memory nothing is decoded next, because the run halts. -/
def Obligations.JumpDecodesNextAtItsTarget : Prop :=
  ∀ (s s1 : State) (T : Byte) (v : HostValue), Memory.wf s.mem = true →
    hostCall (.loadCommand s.pc.toNat (.jmp T)) s = .returned v s1 →
    ∃ t, step s1 = .next t ∧ t.pc = T ∧
      (∀ i w, decodeAt t.mem T.toNat = .ok (i, w) → step t = exec i t) ∧
      (T.toNat < memSize → ∀ n f, decodeAt t.mem T.toNat = .error f →
        hostCall (.executeCommand (n + 1)) t = .faulted f { t with status := .faulted f }) ∧
      (memSize ≤ T.toNat → ∀ n, hostCall (.executeCommand n) t = .returned .nothing t)

/-! ## The run loop -/

/-- A step runs the decoded instruction (45_sequencer.md R84, R89): on a RUNNABLE machine that is not halted, the step at a
`pc` that decodes is `exec` of that instruction, which is `Execute` with the loop's own actions around it: the result
byte emitted and `pc` moved to NextPC, or the fault entered. -/
def Obligations.StepRunsTheDecodedInstruction : Prop :=
  ∀ (s : State) (i : Instr) (w : Nat), s.status = .runnable → decodeAt s.mem s.pc.toNat = .ok (i, w) →
    step s = exec i s ∧ w = instrWidth i ∧
    (∀ e, execute i s = .ok e →
      exec i s = .next { e.state with trace := e.state.trace ++ [e.result], pc := nextPc s.pc i }) ∧
    (∀ f, execute i s = .error f → exec i s = .next { s with status := .faulted f })

/-- 45_sequencer.md R84 and R85: one iteration of the run loop is `execute_command_at(pc)` followed by the emit and the
advance, and an iteration that faults leaves what that operation leaves. (That the faulting step answers a next state
is the model's choice, log entry 1.) -/
def Obligations.IterationIsExecuteAtThenEmitThenAdvance : Prop :=
  ∀ s : State, s.status = .runnable → s.pc.toNat < memSize →
    (∀ b t, hostCall (.executeCommandAt s.pc.toNat) s = .returned (.byte b) t →
      ∃ i w, decodeAt s.mem s.pc.toNat = .ok (i, w) ∧
        step s = .next { t with trace := s.trace ++ [b], pc := nextPc s.pc i }) ∧
    (∀ f t, hostCall (.executeCommandAt s.pc.toNat) s = .faulted f t → step s = .next t ∧ t.status = .faulted f) ∧
    ((∃ b t, hostCall (.executeCommandAt s.pc.toNat) s = .returned (.byte b) t) ∨
      ∃ f t, hostCall (.executeCommandAt s.pc.toNat) s = .faulted f t)

/-- 45_sequencer.md R83: after an instruction executes in the run loop `pc` is 3 further for ADD and SUB, 1 further for
NOP, and the target for JMP, computed without wrapping, since the instruction lies inside memory. -/
def Obligations.RunLoopAdvancesPcWithoutWrapping : Prop :=
  ∀ (s t : State) (i : Instr) (w : Nat), decodeAt s.mem s.pc.toNat = .ok (i, w) → step s = .next t →
    t.status = .runnable →
    s.pc.toNat + w ≤ memSize ∧
    t.pc.toNat = match i with
      | .add _ _ => s.pc.toNat + 3
      | .sub _ _ => s.pc.toNat + 3
      | .nop => s.pc.toNat + 1
      | .jmp T => T.toNat

/-- 45_sequencer.md R86: each iteration that completes emits exactly one event, carrying the sum, the difference or 0;
one that faults emits nothing and keeps the events before it. -/
def Obligations.EachCompletedIterationEmitsOneResultByte : Prop :=
  ∀ s t : State, s.pc.toNat < memSize → step s = .next t →
    (t.status ≠ .runnable → t.trace = s.trace) ∧
    (t.status = .runnable → ∃ i w b, decodeAt s.mem s.pc.toNat = .ok (i, w) ∧ t.trace = s.trace ++ [b] ∧
      match i with
      | .add x y =>
        b.toNat = ((if x = 0 then s.r0 else s.r1).toNat + (if y = 0 then s.r0 else s.r1).toNat) % 256
      | .sub x y =>
        (b.toNat : Int) =
          (((if x = 0 then s.r0 else s.r1).toNat : Int) - ((if y = 0 then s.r0 else s.r1).toNat : Int)) % 256
      | .nop => b = 0
      | .jmp _ => b = 0)

/-- 10_state.md R27: a step leaves `pc` in 0..64 when the jump targets lie in memory, and at `pc = 64` the run is halted; a
JMP to a target outside memory leaves `pc` at that target, and the run is halted there. -/
def Obligations.PcStaysInRangeForTargetsInMemory : Prop :=
  (∀ s t : State, s.pc.toNat ≤ memSize → (∀ T w, decodeAt s.mem s.pc.toNat = .ok (.jmp T, w) → T.toNat < memSize) →
    step s = .next t → t.pc.toNat ≤ memSize) ∧
  (∀ s : State, s.status = .runnable → s.pc.toNat = memSize →
    hostCall (.executeCommand 0) s = .returned .nothing s) ∧
  (∀ (s : State) (T : Byte) (w : Nat), s.status = .runnable → decodeAt s.mem s.pc.toNat = .ok (.jmp T, w) →
    memSize ≤ T.toNat → ∃ t, step s = .next t ∧ t.pc = T ∧ hostCall (.executeCommand 0) t = .returned .nothing t)

/-- 45_sequencer.md R87: a run ends by halting (with `pc ≥ MEM_SIZE` and RUNNABLE), by faulting (FAULTED with the record it
reports) or not at all, exactly one of the three; and a call on a halted machine changes nothing. -/
def Obligations.RunEndsInExactlyOneOfThreeWays : Prop :=
  ∀ s : State, s.status = .runnable →
    (Halts s ∨ Faults s ∨ Hangs s) ∧ ¬(Halts s ∧ Faults s) ∧ ¬(Halts s ∧ Hangs s) ∧ ¬(Faults s ∧ Hangs s) ∧
    (∀ n v t, hostCall (.executeCommand n) s = .returned v t → memSize ≤ t.pc.toNat ∧ t.status = .runnable) ∧
    (∀ n f t, hostCall (.executeCommand n) s = .faulted f t → t.status = .faulted f) ∧
    (memSize ≤ s.pc.toNat → ∀ n, hostCall (.executeCommand n) s = .returned .nothing s)

/-- 45_sequencer.md R87: a program whose final instruction ends exactly at MEM_SIZE ends the run after that instruction,
with one more event and no fault, without decoding past the end. -/
def Obligations.InstructionEndingAtMemoryEndHaltsTheRun : Prop :=
  ∀ (s : State) (i : Instr) (w : Nat), s.status = .runnable → decodeAt s.mem s.pc.toNat = .ok (i, w) →
    (∀ T, i ≠ .jmp T) → i.wellFormed = true → s.pc.toNat + w = memSize →
    ∃ t b, hostCall (.executeCommand 1) s = .returned .nothing t ∧ t.pc.toNat = memSize ∧ t.status = .runnable ∧
      t.trace = s.trace ++ [b]

/-- 45_sequencer.md R88 and 41_control.md R71: a JMP to its own address never ends, and emits 0 at each iteration. -/
def Obligations.JumpToItselfNeverEnds : Prop :=
  ∀ s : State, s.status = .runnable → decodeAt s.mem s.pc.toNat = .ok (.jmp s.pc, 2) →
    Hangs s ∧ ∀ n, hostCall (.executeCommand n) s = .stillRunning { s with trace := s.trace ++ List.replicate n 0 }

/-- The bound that the model puts on watching `execute_command()` (a choice of the model, log entry 6) decides only whether
the end is seen: once a call has ended, every larger bound gives the same end. -/
def Obligations.ExecuteCommandEndDoesNotDependOnTheBound : Prop :=
  ∀ (s : State) (n m : Nat), n ≤ m → (∀ t, hostCall (.executeCommand n) s ≠ .stillRunning t) →
    hostCall (.executeCommand m) s = hostCall (.executeCommand n) s

/-! ## What no instruction does -/

/-- 10_state.md R18: an executed instruction neither writes memory nor reads it: with any other memory it does the same
to everything else. -/
def Obligations.NoInstructionTouchesMemory : Prop :=
  ∀ (i : Instr) (s t : State), exec i s = .next t →
    t.mem = s.mem ∧ ∀ m : Memory, exec i { s with mem := m } = .next { t with mem := m }

/-- 10_state.md R20: register 0 takes every ALU result and no instruction writes another register; of the host's
operations only `set_register(1, v)` (and a new machine) changes `R[1]`. -/
def Obligations.OnlyRegisterZeroIsWrittenByInstructions : Prop :=
  (∀ (i : Instr) (s : State) (e : Executed), execute i s = .ok e → e.state.r1 = s.r1 ∧
    match i with
    | .add _ _ => e.state.r0 = e.result
    | .sub _ _ => e.state.r0 = e.result
    | .nop => e.state.r0 = s.r0
    | .jmp _ => e.state.r0 = s.r0) ∧
  (∀ (i : Instr) (s t : State), exec i s = .next t → t.r1 = s.r1) ∧
  (∀ (s : State) (op : HostOp), op ≠ .new → (∀ v, op ≠ .setRegister 1 v) →
    (stateAfter s (hostCall op s)).r1 = s.r1)

/-- 10_state.md R21: NOP and JMP read no register. -/
def Obligations.NopAndJmpReadNoRegister : Prop :=
  ∀ (s t : State) (i : Instr) (a b : Byte), (i = .nop ∨ ∃ T, i = .jmp T) → exec i s = .next t →
    exec i { s with r0 := a, r1 := b } = .next { t with r0 := a, r1 := b }

/-- 10_state.md R31: the trace is an output stream. A step appends at most one event and does the same whatever the trace
holds; of the host's operations only `execute_command` appends events, and `new()` empties the trace. -/
def Obligations.TraceIsOnlyAppendedToAndNeverRead : Prop :=
  (∀ s t : State, step s = .next t → ∃ ev : List Byte, ev.length ≤ 1 ∧ t.trace = s.trace ++ ev ∧
    ∀ tr : List Byte, step { s with trace := tr } = .next { t with trace := tr ++ ev }) ∧
  (∀ (s : State) (n : Nat), ∃ ev, (stateAfter s (hostCall (.executeCommand n) s)).trace = s.trace ++ ev) ∧
  (∀ (s : State) (op : HostOp), op ≠ .new → (∀ n, op ≠ .executeCommand n) →
    (stateAfter s (hostCall op s)).trace = s.trace) ∧
  (∀ s : State, (stateAfter s (hostCall .new s)).trace = [])

/-- 45_sequencer.md R81: a single instruction executed at `a` does not read `pc`, does not advance it (only JMP writes it,
with its target), emits nothing and touches no memory. -/
def Obligations.ExecuteAtReadsNoPcAndWritesItOnlyForJmp : Prop :=
  ∀ (s t : State) (a : Nat) (v : HostValue), hostCall (.executeCommandAt a) s = .returned v t →
    ∃ i w, decodeAt s.mem a = .ok (i, w) ∧ t.trace = s.trace ∧ t.mem = s.mem ∧ t.r1 = s.r1 ∧
      t.status = s.status ∧ t.pc = (match i with | .jmp T => T | .add _ _ => s.pc | .sub _ _ => s.pc | .nop => s.pc) ∧
      ∀ p : Byte, hostCall (.executeCommandAt a) { s with pc := p } =
        .returned v { t with pc := match i with | .jmp T => T | .add _ _ => p | .sub _ _ => p | .nop => p }

/-- 10_state.md R26: the host cannot write `pc`: `set_register`, `get_register`, `load_command` and `fetch_command_at` keep
it. -/
def Obligations.HostAccessOperationsKeepPc : Prop :=
  ∀ (s : State) (a : Nat) (v : Byte) (i : Instr),
    (stateAfter s (hostCall (.setRegister a v) s)).pc = s.pc ∧ (stateAfter s (hostCall (.getRegister a) s)).pc = s.pc ∧
    (stateAfter s (hostCall (.loadCommand a i) s)).pc = s.pc ∧ (stateAfter s (hostCall (.fetchCommandAt a) s)).pc = s.pc

/-! ## Host access to the registers -/

/-- 45_sequencer.md R77 and R78: `set_register` and `get_register` complete for the indices 0 and 1, the value set is the
value got, the other register and everything else are kept, and any other index is fatal. -/
def Obligations.SetRegisterThenGetRegister : Prop :=
  ∀ (s : State) (i : Nat) (v : Byte), s.status = .runnable →
    (i < 2 → ∃ t, hostCall (.setRegister i v) s = .returned .nothing t ∧
      hostCall (.getRegister i) t = .returned (.byte v) t ∧
      hostCall (.getRegister (1 - i)) t = .returned (.byte (if i = 0 then s.r1 else s.r0)) t ∧
      hostCall (.getRegister i) s = .returned (.byte (if i = 0 then s.r0 else s.r1)) s ∧
      t.mem = s.mem ∧ t.pc = s.pc ∧ t.status = s.status ∧ t.trace = s.trace ∧ t.freeIndex = s.freeIndex) ∧
    (2 ≤ i →
      hostCall (.setRegister i v) s =
        .faulted (.indexOutOfRange .reg i) { s with status := .faulted (.indexOutOfRange .reg i) } ∧
      hostCall (.getRegister i) s =
        .faulted (.indexOutOfRange .reg i) { s with status := .faulted (.indexOutOfRange .reg i) })

/-! ## Faults -/

/-- 60_exceptions.md R91: an opcode byte other than 0x01 to 0x04, 0x00 included, raises InvalidOpcode, code 1, with its
address and the byte, in every operation that decodes it, and no other byte does. -/
def Obligations.IllegalOpcodeRaisesInvalidOpcode : Prop :=
  (∀ (s : State) (a : Nat) (op : Byte), s.status = .runnable → memRead s.mem a = .ok op →
    op ∉ [0x01#8, 0x02#8, 0x03#8, 0x04#8] →
    hostCall (.fetchCommandAt a) s = .faulted (.invalidOpcode a op) { s with status := .faulted (.invalidOpcode a op) } ∧
    hostCall (.executeCommandAt a) s =
      .faulted (.invalidOpcode a op) { s with status := .faulted (.invalidOpcode a op) } ∧
    (s.pc.toNat = a → ∀ n, hostCall (.executeCommand (n + 1)) s =
      .faulted (.invalidOpcode a op) { s with status := .faulted (.invalidOpcode a op) }) ∧
    faultCode (.invalidOpcode a op) = 1) ∧
  (∀ (m : Memory) (a b : Nat) (op : Byte), decodeAt m a = .error (.invalidOpcode b op) →
    b = a ∧ memRead m a = .ok op ∧ op ∉ [0x01#8, 0x02#8, 0x03#8, 0x04#8])

/-- 60_exceptions.md R92: IndexOutOfRange on memory, code 2, with the offending address: the opcode read outside memory;
an operand read outside memory, at the first address that does not exist; an encoder write outside memory, at the first
address that does not exist. -/
def Obligations.MemoryIndexOutOfRangeIsFatal : Prop :=
  ∀ (s : State) (a : Nat), s.status = .runnable →
    (memSize ≤ a → hostCall (.fetchCommandAt a) s =
      .faulted (.indexOutOfRange .mem a) { s with status := .faulted (.indexOutOfRange .mem a) }) ∧
    (∀ i, memRead s.mem a = .ok (opcodeOf i) → memSize < a + instrWidth i →
      hostCall (.fetchCommandAt a) s =
        .faulted (.indexOutOfRange .mem memSize) { s with status := .faulted (.indexOutOfRange .mem memSize) }) ∧
    (∀ i, memSize < a + instrWidth i → ∃ t, t.status = .faulted (.indexOutOfRange .mem (max a memSize)) ∧
      hostCall (.loadCommand a i) s = .faulted (.indexOutOfRange .mem (max a memSize)) t) ∧
    faultCode (.indexOutOfRange .mem a) = 2

/-- 60_exceptions.md R93: IndexOutOfRange on a register, code 2, with the offending index: by ADD and SUB when they
execute, by `set_register` and by `get_register`; never by the decoder. -/
def Obligations.RegisterIndexOutOfRangeIsFatal : Prop :=
  (∀ (s : State) (x y : Byte) (a w : Nat), s.status = .runnable → 2 ≤ x.toNat ∨ 2 ≤ y.toNat →
    decodeAt s.mem a = .ok (.add x y, w) ∨ decodeAt s.mem a = .ok (.sub x y, w) →
    ∃ k, (k = x.toNat ∨ k = y.toNat) ∧ 2 ≤ k ∧ faultCode (.indexOutOfRange .reg k) = 2 ∧
      hostCall (.executeCommandAt a) s =
        .faulted (.indexOutOfRange .reg k) { s with status := .faulted (.indexOutOfRange .reg k) }) ∧
  (∀ (s : State) (i : Nat) (v : Byte), s.status = .runnable → 2 ≤ i →
    hostCall (.setRegister i v) s =
      .faulted (.indexOutOfRange .reg i) { s with status := .faulted (.indexOutOfRange .reg i) } ∧
    hostCall (.getRegister i) s =
      .faulted (.indexOutOfRange .reg i) { s with status := .faulted (.indexOutOfRange .reg i) }) ∧
  (∀ (m : Memory) (a k : Nat), decodeAt m a ≠ .error (.indexOutOfRange .reg k))

/-- 60_exceptions.md R99: the one fault that executing an instruction reports is the first in the spec's order: the
opcode read, the opcode, the operand reads at `a+1` and then `a+2`, the read of `R[x]`, the read of `R[y]`. -/
def Obligations.FirstFaultInOrderIsReported : Prop :=
  ∀ (s t : State) (a : Nat) (f : Fault), hostCall (.executeCommandAt a) s = .faulted f t →
    f = if memSize ≤ a then .indexOutOfRange .mem a
      else if memGet s.mem a ∉ [0x01#8, 0x02#8, 0x03#8, 0x04#8] then .invalidOpcode a (memGet s.mem a)
      else if memSize ≤ a + 1 then .indexOutOfRange .mem (a + 1)
      else if memSize ≤ a + 2 then .indexOutOfRange .mem (a + 2)
      else if 2 ≤ (memGet s.mem (a + 1)).toNat then .indexOutOfRange .reg (memGet s.mem (a + 1)).toNat
      else .indexOutOfRange .reg (memGet s.mem (a + 2)).toNat

/-- 60_exceptions.md R97: a decode or execute fault has written nothing but the status, in every single operation but
`load_command`; and a run that faults stops with `pc` at the faulting instruction and everything as it was before it. -/
def Obligations.FaultsArePrecise : Prop :=
  (∀ (s t : State) (op : HostOp) (f : Fault), (∀ a i, op ≠ .loadCommand a i) → (∀ n, op ≠ .executeCommand n) →
    hostCall op s = .faulted f t → t = { s with status := .faulted f }) ∧
  (∀ (s t : State) (n : Nat) (f : Fault), hostCall (.executeCommand n) s = .faulted f t →
    ∃ k u, k < n ∧ hostCall (.executeCommand k) s = .stillRunning u ∧
      hostCall (.executeCommandAt u.pc.toNat) u = .faulted f t ∧ t = { u with status := .faulted f })

/-- Every fault of the run loop, by decode or by execute, is entered by writing the status and nothing else
(60_exceptions.md R96, R97). That the entry is a next state of `step` is the model's choice (log entry 1). -/
def Obligations.StepEntersAFaultByWritingOnlyTheStatus : Prop :=
  ∀ (s t : State) (f : Fault), step s = .next t → t.status = .faulted f →
    t = { s with status := .faulted f } ∧ s.status = .runnable ∧ s.pc.toNat < memSize ∧
      hostCall (.executeCommandAt s.pc.toNat) s = .faulted f t

/-- After 60_exceptions.md R98: a failed encoder write keeps `R`, `pc` and `trace` and every byte of memory outside the part it
covers (the covered bytes are free values: nothing is said of them, log entry 5). -/
def Obligations.FailedEncodeKeepsEverythingItDoesNotCover : Prop :=
  ∀ (s t : State) (a : Nat) (i : Instr) (f : Fault), Memory.wf s.mem = true →
    hostCall (.loadCommand a i) s = .faulted f t →
    t.status = .faulted f ∧ t.r0 = s.r0 ∧ t.r1 = s.r1 ∧ t.pc = s.pc ∧ t.trace = s.trace ∧
      Memory.wf t.mem = true ∧ ∀ b, b < a ∨ a + instrWidth i ≤ b → memRead t.mem b = memRead s.mem b

/-- 45_sequencer.md R75 and R76: a host operation is refused exactly when the machine is FAULTED and the operation is not
`new()`; a refused one has no effect. Halting refuses nothing. -/
def Obligations.RefusedExactlyWhenFaulted : Prop :=
  ∀ (s : State) (op : HostOp),
    ((∃ r, hostCall op s = .refused r) ↔ (op ≠ .new ∧ ∃ f, s.status = .faulted f)) ∧
    ((∃ r, hostCall op s = .refused r) → stateAfter s (hostCall op s) = s)

/-- 10_state.md R30: the status starts RUNNABLE; once FAULTED it keeps its record through every step (which stops, log
entry 1) and every host operation, until `new()` makes it RUNNABLE. -/
def Obligations.FaultedStatusIsLeftOnlyByNew : Prop :=
  State.reset.status = .runnable ∧
  (∀ (s : State) (f : Fault), s.status = .faulted f → (∀ t, step s ≠ .next t) ∧
    (∀ op, op ≠ .new → (stateAfter s (hostCall op s)).status = .faulted f) ∧
    (stateAfter s (hostCall .new s)).status = .runnable) ∧
  (∀ (s : State) (ops : List HostOp) (f : Fault), s.status = .faulted f → .new ∉ ops → hostDrive ops s = .idle s)

/-! ## Reset -/

/-- 70_reset_and_hazards.md R110: `new()`, in any state, FAULTED included, gives zeroed memory, zeroed registers, `pc` 0,
RUNNABLE and no trace; the reset state is that state. -/
def Obligations.NewGivesTheResetState : Prop :=
  (∀ s : State, ∃ t, hostCall .new s = .returned .nothing t ∧ (∀ a, a < 64 → memRead t.mem a = .ok 0x00#8) ∧
    t.r0 = 0 ∧ t.r1 = 0 ∧ t.pc = 0 ∧ t.status = .runnable ∧ t.trace = []) ∧
  (∀ a, a < 64 → memRead State.reset.mem a = .ok 0x00#8) ∧ State.reset.r0 = 0 ∧ State.reset.r1 = 0 ∧
  State.reset.pc = 0 ∧ State.reset.status = .runnable ∧ State.reset.trace = []

/-- 70_reset_and_hazards.md R112: a run on a fresh machine faults at once with InvalidOpcode at address 0 and emits
nothing, and so does a run that reaches a byte 0x00 that was never loaded. -/
def Obligations.UnloadedMemoryFaultsAtOnce : Prop :=
  (∀ n, hostCall (.executeCommand (n + 1)) State.reset =
    .faulted (.invalidOpcode 0 0x00#8) { State.reset with status := .faulted (.invalidOpcode 0 0x00#8) }) ∧
  (∀ (s : State) (n : Nat), s.status = .runnable → memRead s.mem s.pc.toNat = .ok 0x00#8 →
    hostCall (.executeCommand (n + 1)) s = .faulted (.invalidOpcode s.pc.toNat 0x00#8)
      { s with status := .faulted (.invalidOpcode s.pc.toNat 0x00#8) })

/-! ## Invariants and safety -/

/-- The reset state has the invariant: memory in its canonical form and a legal status. -/
def Obligations.ResetHasTheInvariant : Prop := State.reset.Inv = true

/-- Every step keeps the invariant: memory stays in its canonical form, and a fault record that a step enters is one its
cause can write (60_exceptions.md R91 to R94). -/
def Obligations.StepKeepsTheInvariant : Prop :=
  ∀ s t : State, s.Inv = true → step s = .next t → t.Inv = true

/-- Every sequence of host operations keeps the invariant, in every state it comes to, `load_command` that fails partway
and `execute_command`, ended or not, included (45_sequencer.md R74, 60_exceptions.md R91 to R98). -/
def Obligations.HostOperationsKeepTheInvariant : Prop :=
  ∀ (s : State) (ops : List HostOp), s.Inv = true → (hostDrive ops s).state.Inv = true

/-- 70_reset_and_hazards.md R113, steps 2 and 4: from a `pc` in code that is closed (every address of it decodes, with
register indices 0 or 1, and leads to an address of it or out of memory) or from a halted `pc`, a step answers a next
state that is again RUNNABLE, with that code closed and `pc` in it or halted; so no run faults, however long it is. That
a halted step answers a next state, and with it that a run which halts goes on answering one, is the model's choice (log
entry 2). -/
def Obligations.ClosedCodeNeverFaults : Prop :=
  ∀ (s : State) (P : Nat → Prop), s.status = .runnable → CodeClosed s.mem P →
    (P s.pc.toNat ∨ memSize ≤ s.pc.toNat) →
    (∃ t, step s = .next t ∧ t.status = .runnable ∧ CodeClosed t.mem P ∧
      (P t.pc.toNat ∨ memSize ≤ t.pc.toNat)) ∧
    SafeRun s ∧ ¬Faults s

/-! ## Host operations never overlap -/

/-- 00_scope.md R12, 20_memory.md R44, 45_sequencer.md R88: a host that calls operations one after another begins the next
only from the state the last one left when it completed; a sequence that has not come to its end is inside one
`execute_command()` that every operation before it had completed for, nothing after it has begun, and nothing after it
can cancel it; and from a state whose run never ends nothing after the call ever begins, under any bound (the bound is
the model's way of watching, log entry 6). -/
def Obligations.NoHostOperationBeginsInsideAnother : Prop :=
  (∀ (s t : State) (ops more : List HostOp), hostDrive ops s = .idle t → hostDrive (ops ++ more) s = hostDrive more t) ∧
  (∀ (s t : State) (ops rest : List HostOp), hostDrive ops s = .busy t rest →
    (∃ before n u, ops = before ++ .executeCommand n :: rest ∧ hostDrive before s = .idle u ∧
      hostCall (.executeCommand n) u = .stillRunning t) ∧
    ∀ more, hostDrive (ops ++ more) s = .busy t (rest ++ more)) ∧
  (∀ (s : State) (n : Nat) (rest : List HostOp), s.status = .runnable → Hangs s →
    ∃ t, hostDrive (.executeCommand n :: rest) s = .busy t rest)
end

