-- ==== Sys2Proof/Laws/Memory.lean ====
section
/-!
SUPPORT. The memory's laws: what each operation can do, that every one keeps the canonical form, and that a read after
a write gives the most recent byte.
-/

namespace Sys2Proof.Machine

/-! ## The canonical form -/

theorem wfFrom_cons {lo a : Nat} {b : Byte} {m : Memory} :
    Memory.wfFrom lo ((a, b) :: m) = true ↔
      lo ≤ a ∧ a < memSize ∧ b ≠ unlistedByte ∧ Memory.wfFrom (a + 1) m = true := by
  simp [Memory.wfFrom, and_assoc]

theorem wfFrom_weaken {lo lo' : Nat} {m : Memory} (h : Memory.wfFrom lo m = true) (hle : lo' ≤ lo) :
    Memory.wfFrom lo' m = true := by
  cases m with
  | nil => rfl
  | cons c m =>
    obtain ⟨a, b⟩ := c
    rw [wfFrom_cons] at h ⊢
    exact ⟨by omega, h.2⟩

/-- Below the first listed address, everything reads as an unlisted byte. -/
theorem memGet_below {lo k : Nat} {m : Memory} (h : Memory.wfFrom lo m = true) (hk : k < lo) :
    memGet m k = unlistedByte := by
  induction m generalizing lo with
  | nil => rfl
  | cons c m ih =>
    obtain ⟨a, b⟩ := c
    rw [wfFrom_cons] at h
    have hne : a ≠ k := by omega
    simp only [memGet, hne, if_false]
    exact ih h.2.2.2 (by omega)

theorem wf_nil : Memory.wf [] = true := rfl

/-- The reset state's memory has the canonical form. -/
theorem reset_mem_wf : Memory.wf State.reset.mem = true := rfl

/-! ## One byte written -/

theorem memSet_wfFrom {lo k : Nat} {m : Memory} {v : Byte} (h : Memory.wfFrom lo m = true) (hlo : lo ≤ k)
    (hk : k < memSize) : Memory.wfFrom lo (memSet m k v) = true := by
  induction m generalizing lo with
  | nil =>
    unfold memSet
    split
    · rfl
    · rename_i hv
      exact wfFrom_cons.2 ⟨hlo, hk, hv, rfl⟩
  | cons c m ih =>
    obtain ⟨a, b⟩ := c
    have h' := wfFrom_cons.1 h
    unfold memSet
    split
    · rename_i hak
      exact wfFrom_cons.2 ⟨h'.1, h'.2.1, h'.2.2.1, ih h'.2.2.2 (by omega)⟩
    · split
      · split
        · exact wfFrom_weaken h'.2.2.2 (by omega)
        · rename_i hv
          exact wfFrom_cons.2 ⟨hlo, hk, hv, by subst_vars; exact h'.2.2.2⟩
      · split
        · exact h
        · rename_i hv
          refine wfFrom_cons.2 ⟨hlo, hk, hv, wfFrom_cons.2 ⟨by omega, h'.2⟩⟩

/-- A write inside memory keeps the canonical form. -/
theorem memSet_wf {m : Memory} {k : Nat} {v : Byte} (h : Memory.wf m = true) (hk : k < memSize) :
    Memory.wf (memSet m k v) = true :=
  memSet_wfFrom h (Nat.zero_le _) hk

theorem memGet_memSet_from {lo k j : Nat} {m : Memory} {v : Byte} (h : Memory.wfFrom lo m = true) :
    memGet (memSet m k v) j = if j = k then v else memGet m j := by
  induction m generalizing lo with
  | nil =>
    by_cases hv : v = unlistedByte <;> by_cases hj : j = k <;> simp [memSet, memGet, hv, hj]
    intro h
    exact absurd h.symm hj
  | cons c m ih =>
    obtain ⟨a, b⟩ := c
    have h' := wfFrom_cons.1 h
    unfold memSet
    split
    · rename_i hak
      simp only [memGet, ih h'.2.2.2]
      split_ifs <;> first | rfl | omega
    · rename_i hak
      split
      · rename_i hEq
        subst hEq
        by_cases hv : v = unlistedByte <;> by_cases hj : j = a
        · subst hj
          simp [hv, memGet_below h'.2.2.2 (Nat.lt_succ_self j)]
        · simp [hv, hj, memGet, Ne.symm hj]
        · simp [hv, hj, memGet]
        · simp [hv, hj, memGet, Ne.symm hj]
      · rename_i hne
        have hlt : k < a := by omega
        have hbelow : memGet ((a, b) :: m) k = unlistedByte :=
          memGet_below (lo := a) (wfFrom_cons.2 ⟨le_rfl, h'.2⟩) hlt
        by_cases hv : v = unlistedByte <;> by_cases hj : j = k
        · subst hj
          simp [hv, hbelow]
        · simp [hv, hj]
        · simp [hv, hj, memGet]
        · simp only [hv, hj, memGet, if_false, Ne.symm hj]

/-- Read after write: the byte written, and every other byte as before (20_memory.md R46). -/
theorem memGet_memSet {m : Memory} {k j : Nat} {v : Byte} (h : Memory.wf m = true) :
    memGet (memSet m k v) j = if j = k then v else memGet m j :=
  memGet_memSet_from h

/-! ## Checked accesses -/

/-- All that a read can do: the byte inside memory, the fault outside (R39, R40). -/
theorem memRead_eq (m : Memory) (a : Nat) :
    memRead m a = if memSize ≤ a then .error (.indexOutOfRange .mem a) else .ok (memGet m a) := rfl

/-- All that a write can do. -/
theorem memWrite_cases {m : Memory} {a : Nat} {v : Byte} :
    (memSize ≤ a ∧ memWrite m a v = .error (.indexOutOfRange .mem a)) ∨
      (a < memSize ∧ memWrite m a v = .ok (memSet m a v)) := by
  unfold memWrite
  by_cases h : memSize ≤ a
  · exact .inl ⟨h, if_pos h⟩
  · exact .inr ⟨by omega, if_neg h⟩

theorem memWrite_wf {m m' : Memory} {a : Nat} {v : Byte} (h : Memory.wf m = true)
    (hw : memWrite m a v = .ok m') : Memory.wf m' = true := by
  obtain ⟨_, he⟩ | ⟨hlt, he⟩ := memWrite_cases (m := m) (a := a) (v := v)
  · rw [he] at hw; cases hw
  · rw [he] at hw; cases hw; exact memSet_wf h hlt

/-! ## Runs of bytes -/

/-- All that a successful run of encoder writes can do: the bytes at their addresses, everything else as before, the
canonical form kept; and it ends inside memory. -/
theorem storeBytes_ok {bs : List Byte} {m m' : Memory} {a : Nat} (h : Memory.wf m = true)
    (hs : storeBytes m a bs = .ok m') :
    Memory.wf m' = true ∧ (bs ≠ [] → a + bs.length ≤ memSize) ∧
      ∀ j, memGet m' j = if a ≤ j then (bs[j - a]?).getD (memGet m j) else memGet m j := by
  induction bs generalizing m a with
  | nil =>
    simp only [storeBytes] at hs
    cases hs
    exact ⟨h, by simp, by simp⟩
  | cons b bs ih =>
    obtain ⟨_, he⟩ | ⟨hlt, he⟩ := memWrite_cases (m := m) (a := a) (v := b)
    · simp [storeBytes, he] at hs
    · simp only [storeBytes, he] at hs
      obtain ⟨hwf, hlen, hget⟩ := ih (memSet_wf h hlt) hs
      refine ⟨hwf, fun _ => ?_, fun j => ?_⟩
      · cases bs with
        | nil => simp; omega
        | cons c cs => have := hlen (by simp); simp at this ⊢; omega
      · rw [hget j, memGet_memSet h]
        by_cases h1 : a + 1 ≤ j
        · have h2 : a ≤ j := by omega
          have h3 : j ≠ a := by omega
          have h4 : j - a = (j - (a + 1)) + 1 := by omega
          simp [h1, h2, h3, h4]
        · by_cases h2 : j = a
          · subst h2; simp
          · have h3 : ¬ a ≤ j := by omega
            simp [h1, h2, h3]

/-- A run of writes inside memory succeeds. -/
theorem storeBytes_succeeds {bs : List Byte} {m : Memory} {a : Nat} (h : a + bs.length ≤ memSize) :
    ∃ m', storeBytes m a bs = .ok m' := by
  induction bs generalizing m a with
  | nil => exact ⟨m, rfl⟩
  | cons b bs ih =>
    simp only [List.length_cons] at h
    obtain ⟨hge, _⟩ | ⟨_, he⟩ := memWrite_cases (m := m) (a := a) (v := b)
    · omega
    · simp only [storeBytes, he]
      exact ih (by omega)

/-- A run of writes that passes the end of memory faults with its first address outside memory (R43, R92). -/
theorem storeBytes_faults {bs : List Byte} {m : Memory} {a : Nat} (hne : bs ≠ [])
    (h : memSize < a + bs.length) :
    storeBytes m a bs = .error (.indexOutOfRange .mem (max a memSize)) := by
  induction bs generalizing m a with
  | nil => exact absurd rfl hne
  | cons b bs ih =>
    obtain ⟨hge, he⟩ | ⟨hlt, he⟩ := memWrite_cases (m := m) (a := a) (v := b)
    · simp only [storeBytes, he]
      rw [Nat.max_eq_left hge]
    · simp only [storeBytes, he]
      cases bs with
      | nil => simp at h; omega
      | cons c cs =>
        rw [ih (by simp) (by simp at h ⊢; omega), Nat.max_eq_right (by omega), Nat.max_eq_right (by omega)]

/-- All that a failed encoder write does to memory: the canonical form is kept and every byte outside the part of
memory it covers reads as before (60_exceptions.md R98). -/
theorem freeBytes_frame {n j a : Nat} {m : Memory} (h : Memory.wf m = true) :
    Memory.wf (freeBytes m a n j) = true ∧
      ∀ k, (k < a ∨ a + n ≤ k ∨ memSize ≤ k) → memGet (freeBytes m a n j) k = memGet m k := by
  induction n generalizing m a j with
  | zero => exact ⟨h, fun _ _ => rfl⟩
  | succ n ih =>
    simp only [freeBytes]
    by_cases hlt : a < memSize
    · rw [if_pos hlt]
      obtain ⟨hwf, hget⟩ := ih (a := a + 1) (j := j + 1) (memSet_wf (v := Config.freeByte j) h hlt)
      refine ⟨hwf, fun k hk => ?_⟩
      rw [hget k (by omega), memGet_memSet h, if_neg (by omega)]
    · rw [if_neg hlt]
      obtain ⟨hwf, hget⟩ := ih (a := a + 1) (j := j + 1) h
      exact ⟨hwf, fun k hk => hget k (by omega)⟩

/-- Placing bytes keeps the canonical form. -/
theorem placeBytes_wf {bs : List Byte} {m : Memory} {a : Nat} (h : Memory.wf m = true) :
    Memory.wf (placeBytes m a bs) = true := by
  induction bs generalizing m a with
  | nil => exact h
  | cons b bs ih =>
    simp only [placeBytes]
    split
    · rename_i hlt
      exact ih (memSet_wf h hlt)
    · exact ih h

end Sys2Proof.Machine
end

