-- ==== Sys2Proof/Laws/State.lean ====
section
/-!
SUPPORT. One lemma per field of State per update of it, each true by `rfl`.
-/

namespace Sys2Proof.Machine

/-! ## raise -/

@[simp] theorem raise_mem (f : Fault) (s : State) :
    (raise f s).mem = s.mem := rfl
@[simp] theorem raise_r0 (f : Fault) (s : State) :
    (raise f s).r0 = s.r0 := rfl
@[simp] theorem raise_r1 (f : Fault) (s : State) :
    (raise f s).r1 = s.r1 := rfl
@[simp] theorem raise_pc (f : Fault) (s : State) :
    (raise f s).pc = s.pc := rfl
@[simp] theorem raise_status (f : Fault) (s : State) :
    (raise f s).status = .faulted f := rfl
@[simp] theorem raise_trace (f : Fault) (s : State) :
    (raise f s).trace = s.trace := rfl
@[simp] theorem raise_freeIndex (f : Fault) (s : State) :
    (raise f s).freeIndex = s.freeIndex := rfl

/-! ## emit -/

@[simp] theorem emit_mem (s : State) (b : Byte) :
    (emit s b).mem = s.mem := rfl
@[simp] theorem emit_r0 (s : State) (b : Byte) :
    (emit s b).r0 = s.r0 := rfl
@[simp] theorem emit_r1 (s : State) (b : Byte) :
    (emit s b).r1 = s.r1 := rfl
@[simp] theorem emit_pc (s : State) (b : Byte) :
    (emit s b).pc = s.pc := rfl
@[simp] theorem emit_status (s : State) (b : Byte) :
    (emit s b).status = s.status := rfl
@[simp] theorem emit_trace (s : State) (b : Byte) :
    (emit s b).trace = s.trace ++ [b] := rfl
@[simp] theorem emit_freeIndex (s : State) (b : Byte) :
    (emit s b).freeIndex = s.freeIndex := rfl

/-! ## setPc -/

@[simp] theorem setPc_mem (s : State) (t : Byte) :
    (setPc s t).mem = s.mem := rfl
@[simp] theorem setPc_r0 (s : State) (t : Byte) :
    (setPc s t).r0 = s.r0 := rfl
@[simp] theorem setPc_r1 (s : State) (t : Byte) :
    (setPc s t).r1 = s.r1 := rfl
@[simp] theorem setPc_pc (s : State) (t : Byte) :
    (setPc s t).pc = t := rfl
@[simp] theorem setPc_status (s : State) (t : Byte) :
    (setPc s t).status = s.status := rfl
@[simp] theorem setPc_trace (s : State) (t : Byte) :
    (setPc s t).trace = s.trace := rfl
@[simp] theorem setPc_freeIndex (s : State) (t : Byte) :
    (setPc s t).freeIndex = s.freeIndex := rfl

/-! ## wr0 -/

@[simp] theorem wr0_mem (s : State) (v : Byte) :
    (wr0 s v).mem = s.mem := rfl
@[simp] theorem wr0_r0 (s : State) (v : Byte) :
    (wr0 s v).r0 = v := rfl
@[simp] theorem wr0_r1 (s : State) (v : Byte) :
    (wr0 s v).r1 = s.r1 := rfl
@[simp] theorem wr0_pc (s : State) (v : Byte) :
    (wr0 s v).pc = s.pc := rfl
@[simp] theorem wr0_status (s : State) (v : Byte) :
    (wr0 s v).status = s.status := rfl
@[simp] theorem wr0_trace (s : State) (v : Byte) :
    (wr0 s v).trace = s.trace := rfl
@[simp] theorem wr0_freeIndex (s : State) (v : Byte) :
    (wr0 s v).freeIndex = s.freeIndex := rfl

/-! ## scramble -/

@[simp] theorem scramble_mem (a n : Nat) (s : State) :
    (scramble a n s).mem = freeBytes s.mem a n s.freeIndex := rfl
@[simp] theorem scramble_r0 (a n : Nat) (s : State) :
    (scramble a n s).r0 = s.r0 := rfl
@[simp] theorem scramble_r1 (a n : Nat) (s : State) :
    (scramble a n s).r1 = s.r1 := rfl
@[simp] theorem scramble_pc (a n : Nat) (s : State) :
    (scramble a n s).pc = s.pc := rfl
@[simp] theorem scramble_status (a n : Nat) (s : State) :
    (scramble a n s).status = s.status := rfl
@[simp] theorem scramble_trace (a n : Nat) (s : State) :
    (scramble a n s).trace = s.trace := rfl
@[simp] theorem scramble_freeIndex (a n : Nat) (s : State) :
    (scramble a n s).freeIndex = s.freeIndex + n := rfl

/-! ## withFetchWord -/

@[simp] theorem withFetchWord_mem (s : State) (nbits w : Nat) :
    (s.withFetchWord nbits w).mem = placeBytes s.mem s.pc.toNat (wordBytes nbits w) := rfl
@[simp] theorem withFetchWord_r0 (s : State) (nbits w : Nat) :
    (s.withFetchWord nbits w).r0 = s.r0 := rfl
@[simp] theorem withFetchWord_r1 (s : State) (nbits w : Nat) :
    (s.withFetchWord nbits w).r1 = s.r1 := rfl
@[simp] theorem withFetchWord_pc (s : State) (nbits w : Nat) :
    (s.withFetchWord nbits w).pc = s.pc := rfl
@[simp] theorem withFetchWord_status (s : State) (nbits w : Nat) :
    (s.withFetchWord nbits w).status = s.status := rfl
@[simp] theorem withFetchWord_trace (s : State) (nbits w : Nat) :
    (s.withFetchWord nbits w).trace = s.trace := rfl
@[simp] theorem withFetchWord_freeIndex (s : State) (nbits w : Nat) :
    (s.withFetchWord nbits w).freeIndex = s.freeIndex := rfl

/-! ## The reset state (70_reset_and_hazards.md R110) -/

@[simp] theorem reset_mem : State.reset.mem = [] := rfl
@[simp] theorem reset_r0 : State.reset.r0 = 0 := rfl
@[simp] theorem reset_r1 : State.reset.r1 = 0 := rfl
@[simp] theorem reset_pc : State.reset.pc = 0 := rfl
@[simp] theorem reset_status : State.reset.status = .runnable := rfl
@[simp] theorem reset_trace : State.reset.trace = [] := rfl

end Sys2Proof.Machine
end

