-- ==== Sys2Proof/Laws/Ops.lean ====
section
/-!
SUPPORT. What each shared operation can do, said once: register reads, operands, the ALU, the bodies of the
instructions, the run loop's retirement, the decoder, the step.
-/

namespace Sys2Proof.Machine

/-! ## Registers and operands -/

/-- All that a register read can do (60_exceptions.md R93). -/
theorem regRead_cases (s : State) (i : Nat) :
    (i = 0 ∧ regRead s i = .ok s.r0) ∨ (i = 1 ∧ regRead s i = .ok s.r1) ∨
      (2 ≤ i ∧ regRead s i = .error (.indexOutOfRange .reg i)) := by
  match i with
  | 0 => exact .inl ⟨rfl, rfl⟩
  | 1 => exact .inr (.inl ⟨rfl, rfl⟩)
  | n + 2 => exact .inr (.inr ⟨by omega, by simp [regRead]⟩)

/-- All that a register write by the host can do. -/
theorem regWrite_cases (s : State) (i : Nat) (v : Byte) :
    (i = 0 ∧ regWrite s i v = .ok { s with r0 := v }) ∨ (i = 1 ∧ regWrite s i v = .ok { s with r1 := v }) ∨
      (2 ≤ i ∧ regWrite s i v = .error (.indexOutOfRange .reg i)) := by
  match i with
  | 0 => exact .inl ⟨rfl, rfl⟩
  | 1 => exact .inr (.inl ⟨rfl, rfl⟩)
  | n + 2 => exact .inr (.inr ⟨by omega, by simp [regWrite]⟩)

/-- All that reading the two operands of ADD and SUB can do: `x` first (R99). -/
theorem regOperands_cases (s : State) (x y : Byte) :
    (∃ vx vy, regRead s x.toNat = .ok vx ∧ regRead s y.toNat = .ok vy ∧ regOperands s x y = .ok (vx, vy)) ∨
      (numRegs ≤ x.toNat ∧ regOperands s x y = .error (.indexOutOfRange .reg x.toNat)) ∨
      (x.toNat < numRegs ∧ numRegs ≤ y.toNat ∧ regOperands s x y = .error (.indexOutOfRange .reg y.toNat)) := by
  simp only [regOperands, regOperand]
  obtain ⟨hx, ex⟩ | ⟨hx, ex⟩ | ⟨hx, ex⟩ := regRead_cases s x.toNat <;>
  obtain ⟨hy, ey⟩ | ⟨hy, ey⟩ | ⟨hy, ey⟩ := regRead_cases s y.toNat <;>
  simp only [numRegs] at * <;> rw [ex, ey] <;> simp <;> omega

/-! ## The ALU (40_arithmetic.md R65) -/

theorem aluAdd_toNat (a b : Byte) : (aluAdd a b).toNat = (a.toNat + b.toNat) % 256 := by
  simp [aluAdd]

theorem aluSub_toNat (a b : Byte) :
    ((aluSub a b).toNat : Int) = ((a.toNat : Int) - (b.toNat : Int)) % 256 := by
  simp only [aluSub, BitVec.toNat_ofNat]
  omega

/-- The ALU's sum is the addition of bit vectors. -/
theorem aluAdd_eq (a b : Byte) : aluAdd a b = a + b := by
  apply BitVec.eq_of_toNat_eq
  rw [aluAdd_toNat, BitVec.toNat_add]

/-- The ALU's difference is the subtraction of bit vectors. -/
theorem aluSub_eq (a b : Byte) : aluSub a b = a - b := by
  apply BitVec.eq_of_toNat_eq
  have h := aluSub_toNat a b
  rw [BitVec.toNat_sub]
  have := a.isLt
  have := b.isLt
  omega

/-! ## The bodies and the run loop around them -/

/-- All that ADD's body can do. -/
theorem bodyAdd_cases (x y : Byte) (s : State) :
    (∃ v, regOperands s x y = .ok v ∧ bodyAdd x y s = .ok (writeBack s (aluAdd v.1 v.2))) ∨
      (∃ f, regOperands s x y = .error f ∧ bodyAdd x y s = .error f) := by
  unfold bodyAdd
  cases h : regOperands s x y with
  | error f => exact .inr ⟨f, rfl, rfl⟩
  | ok v => exact .inl ⟨v, rfl, rfl⟩

/-- All that SUB's body can do. -/
theorem bodySub_cases (x y : Byte) (s : State) :
    (∃ v, regOperands s x y = .ok v ∧ bodySub x y s = .ok (writeBack s (aluSub v.1 v.2))) ∨
      (∃ f, regOperands s x y = .error f ∧ bodySub x y s = .error f) := by
  unfold bodySub
  cases h : regOperands s x y with
  | error f => exact .inr ⟨f, rfl, rfl⟩
  | ok v => exact .inl ⟨v, rfl, rfl⟩

/-- The run loop's iteration is `Execute` with the loop's own actions around it (45_sequencer.md R84). -/
theorem exec_eq_retire (i : Instr) (s : State) : exec i s = retire i s (execute i s) := by
  cases i <;> rfl

/-- All that retiring an instruction can do: a fault entered from the state before it, or one event and the next pc. -/
theorem retire_cases {i : Instr} {s t : State} {r : Except Fault Executed} (h : retire i s r = .next t) :
    (∃ f, r = .error f ∧ t = raise f s) ∨
      (∃ e, r = .ok e ∧ t = setPc (emit e.state e.result) (nextPc s.pc i)) := by
  cases r with
  | error f => cases h; exact .inl ⟨f, rfl, rfl⟩
  | ok e => cases h; exact .inr ⟨e, rfl, rfl⟩

/-- All that executing an instruction can do to the state, beside its result byte: ADD and SUB write `R[0]` with the
result, JMP writes `pc`, nothing else is written (45_sequencer.md R81). -/
theorem execute_ok {i : Instr} {s : State} {e : Executed} (h : execute i s = .ok e) :
    match i with
    | .add x y => ∃ v, regOperands s x y = .ok v ∧ e = writeBack s (aluAdd v.1 v.2)
    | .sub x y => ∃ v, regOperands s x y = .ok v ∧ e = writeBack s (aluSub v.1 v.2)
    | .nop => e = { state := s, result := 0 }
    | .jmp t => e = { state := setPc s t, result := 0 } := by
  cases i with
  | add x y =>
    obtain ⟨v, hv, he⟩ | ⟨f, _, he⟩ := bodyAdd_cases x y s
    · exact ⟨v, hv, by rw [execute, he] at h; cases h; rfl⟩
    · rw [execute, he] at h; cases h
  | sub x y =>
    obtain ⟨v, hv, he⟩ | ⟨f, _, he⟩ := bodySub_cases x y s
    · exact ⟨v, hv, by rw [execute, he] at h; cases h; rfl⟩
    · rw [execute, he] at h; cases h
  | nop => cases h; rfl
  | jmp t => cases h; rfl

/-- Only a register index outside {0, 1} makes an execution fault (60_exceptions.md R93, R97). -/
theorem execute_error {i : Instr} {s : State} {f : Fault} (h : execute i s = .error f) :
    ∃ k, numRegs ≤ k ∧ f = .indexOutOfRange .reg k := by
  have key : ∀ x y, regOperands s x y = .error f → ∃ k, numRegs ≤ k ∧ f = .indexOutOfRange .reg k := by
    intro x y hr
    obtain ⟨_, _, _, _, he⟩ | ⟨hx, he⟩ | ⟨_, hy, he⟩ := regOperands_cases s x y <;> rw [he] at hr <;> cases hr
    · exact ⟨_, hx, rfl⟩
    · exact ⟨_, hy, rfl⟩
  cases i with
  | add x y =>
    obtain ⟨v, _, he⟩ | ⟨g, hg, he⟩ := bodyAdd_cases x y s <;> rw [execute, he] at h <;> cases h
    exact key x y hg
  | sub x y =>
    obtain ⟨v, _, he⟩ | ⟨g, hg, he⟩ := bodySub_cases x y s <;> rw [execute, he] at h <;> cases h
    exact key x y hg
  | nop => cases h
  | jmp t => cases h

/-! ## The decoder -/

/-- No two of the four opcodes are the same byte (30_encoding.md R54). -/
theorem opcodes_distinct :
    opSub ≠ opAdd ∧ opNop ≠ opAdd ∧ opNop ≠ opSub ∧ opJmp ≠ opAdd ∧ opJmp ≠ opSub ∧ opJmp ≠ opNop := by
  decide

/-- The bytes the decoder can read begin with the byte at the address, when the address exists. -/
theorem codeBytes_succ {m : Memory} {a n : Nat} (h : a < memSize) :
    codeBytes m a (n + 1) = memGet m a :: codeBytes m (a + 1) n := by
  simp only [codeBytes, memRead, if_neg (Nat.not_le.2 h)]

/-- No byte can be read outside memory. -/
theorem codeBytes_outside {m : Memory} {a n : Nat} (h : memSize ≤ a) : codeBytes m a n = [] := by
  cases n with
  | zero => rfl
  | succ n => simp only [codeBytes, memRead, if_pos h]

/-- A successful decode gives the width of the instruction it gives (30_encoding.md R59). -/
theorem decode_width {bs : List Byte} {i : Instr} {w : Nat} (h : decode bs = .ok (i, w)) : w = instrWidth i := by
  cases bs with
  | nil => cases h
  | cons op rest =>
    simp only [decode] at h
    split_ifs at h
    · rcases rest with _ | ⟨x, _ | ⟨y, r⟩⟩ <;> simp [decodeRR] at h
      obtain ⟨rfl, rfl⟩ := h; rfl
    · rcases rest with _ | ⟨x, _ | ⟨y, r⟩⟩ <;> simp [decodeRR] at h
      obtain ⟨rfl, rfl⟩ := h; rfl
    · cases h; rfl
    · rcases rest with _ | ⟨x, r⟩ <;> simp [decodeJ] at h
      obtain ⟨rfl, rfl⟩ := h; rfl

/-- All that a decode at an address can do, opcode by opcode and in the order of faults of 60_exceptions.md R99. -/
theorem decodeAt_eq (m : Memory) (a : Nat) :
    decodeAt m a =
      if memSize ≤ a then .error (.indexOutOfRange .mem a)
      else if memGet m a = opAdd then
        (if a + 3 ≤ memSize then .ok (.add (memGet m (a + 1)) (memGet m (a + 2)), 3)
         else .error (.indexOutOfRange .mem memSize))
      else if memGet m a = opSub then
        (if a + 3 ≤ memSize then .ok (.sub (memGet m (a + 1)) (memGet m (a + 2)), 3)
         else .error (.indexOutOfRange .mem memSize))
      else if memGet m a = opNop then .ok (.nop, 1)
      else if memGet m a = opJmp then
        (if a + 2 ≤ memSize then .ok (.jmp (memGet m (a + 1)), 2)
         else .error (.indexOutOfRange .mem memSize))
      else .error (.invalidOpcode a (memGet m a)) := by
  unfold decodeAt
  by_cases h0 : memSize ≤ a
  · rw [codeBytes_outside h0, if_pos h0]; rfl
  · rw [if_neg h0, codeBytes_succ (by omega)]
    by_cases h1 : memSize ≤ a + 1
    · rw [codeBytes_outside h1]
      have ha : a + 1 = 64 := by simp only [memSize] at h0 h1; omega
      simp only [decode, decodeRR, decodeJ]
      split_ifs <;> simp_all [decodeFault, memSize]
    · rw [codeBytes_succ (by omega)]
      by_cases h2 : memSize ≤ a + 1 + 1
      · rw [codeBytes_outside h2]
        have ha : a + 2 = 64 := by simp only [memSize] at h1 h2; omega
        simp only [decode, decodeRR, decodeJ]
        split_ifs <;> simp_all [decodeFault, memSize]
      · rw [codeBytes_succ (by omega)]
        simp only [decode, decodeRR, decodeJ, memSize] at *
        split_ifs <;> first | rfl | omega

/-- The width of a decoded instruction is its kind's, and its bytes all lie in memory (R59, 10_state.md R25). -/
theorem decodeAt_width {m : Memory} {a w : Nat} {i : Instr} (h : decodeAt m a = .ok (i, w)) :
    w = instrWidth i ∧ a + w ≤ memSize := by
  rw [decodeAt_eq] at h
  split_ifs at h <;> cases h <;> simp_all [instrWidth, memSize]

/-! ## The sequencer and the host interface -/

/-- The sequencer's sum is exact while the instruction lies in memory (45_sequencer.md R83). -/
theorem nextPc_toNat (a : Byte) (i : Instr) : a.toNat + instrWidth i ≤ memSize →
    (nextPc a i).toNat = match i with
      | .add _ _ => a.toNat + 3
      | .sub _ _ => a.toNat + 3
      | .nop => a.toNat + 1
      | .jmp t => t.toNat := by
  intro h
  cases i <;> simp [nextPc, instrWidth, memSize] at h ⊢ <;> omega

/-- An operation on a RUNNABLE machine is done. -/
theorem ifRunnable_runnable {s : State} (h : s.status = .runnable) (r : HostResult) : ifRunnable s r = r := by
  simp only [ifRunnable, h]

/-- An operation on a FAULTED machine is refused. -/
theorem ifRunnable_faulted {s : State} {f : Fault} (h : s.status = .faulted f) (r : HostResult) :
    ifRunnable s r = .refused .machineFaulted := by
  simp only [ifRunnable, h]

/-! ## The step -/

/-- A step of a FAULTED machine. -/
theorem step_faulted {s : State} {f : Fault} (h : s.status = .faulted f) : step s = .fault f := by
  simp [step, h, faultedStep]

/-- A step of a halted run. -/
theorem step_halted {s : State} (h : s.status = .runnable) (hp : memSize ≤ s.pc.toNat) : step s = .next s := by
  have hh : halted s = true := decide_eq_true hp
  simp [step, h, hh, haltedStep]

/-- A step of a running machine whose decode faults enters that fault. -/
theorem step_decodeFault {s : State} {f : Fault} (h : s.status = .runnable) (hp : s.pc.toNat < memSize)
    (hd : decodeAt s.mem s.pc.toNat = .error f) : step s = .next (raise f s) := by
  have hh : halted s = false := decide_eq_false (Nat.not_le.2 hp)
  simp [step, h, hh, hd]

/-- A step of a running machine executes the instruction decoded at `pc`. -/
theorem step_decoded {s : State} {i : Instr} {w : Nat} (h : s.status = .runnable) (hp : s.pc.toNat < memSize)
    (hd : decodeAt s.mem s.pc.toNat = .ok (i, w)) : step s = retire i s (execute i s) := by
  have hh : halted s = false := decide_eq_false (Nat.not_le.2 hp)
  simp [step, h, hh, hd, exec_eq_retire]

/-- All that a step which answers a next state can have done. -/
theorem step_next_cases {s t : State} (h : step s = .next t) :
    s.status = .runnable ∧
      ((memSize ≤ s.pc.toNat ∧ t = s) ∨
        (s.pc.toNat < memSize ∧
          ((∃ f, decodeAt s.mem s.pc.toNat = .error f ∧ t = raise f s) ∨
            (∃ i w, decodeAt s.mem s.pc.toNat = .ok (i, w) ∧
              ((∃ f, execute i s = .error f ∧ t = raise f s) ∨
                (∃ e, execute i s = .ok e ∧ t = setPc (emit e.state e.result) (nextPc s.pc i))))))) := by
  cases hs : s.status with
  | faulted f => rw [step_faulted hs] at h; cases h
  | runnable =>
    refine ⟨rfl, ?_⟩
    by_cases hp : memSize ≤ s.pc.toNat
    · rw [step_halted hs hp] at h; cases h; exact .inl ⟨hp, rfl⟩
    · refine .inr ⟨by omega, ?_⟩
      cases hd : decodeAt s.mem s.pc.toNat with
      | error f => rw [step_decodeFault hs (by omega) hd] at h; cases h; exact .inl ⟨f, rfl, rfl⟩
      | ok r =>
        obtain ⟨i, w⟩ := r
        rw [step_decoded hs (by omega) hd] at h
        exact .inr ⟨i, w, rfl, retire_cases h⟩

end Sys2Proof.Machine
end

