-- ==== Sys2Proof/Laws/HostOps.lean ====
section
/-!
SUPPORT. What an execution keeps, the values of valid operands, the encoder's bytes as the decoder reads them, and one
iteration of `execute_command()` and one call of a host at a time.
-/

namespace Sys2Proof.Machine

/-! ## Executions -/

/-- What every execution that does not fault keeps: memory, `R[1]`, the status, the trace. -/
theorem execute_frame {i : Instr} {s : State} {e : Executed} (h : execute i s = .ok e) :
    e.state.mem = s.mem ∧ e.state.r1 = s.r1 ∧ e.state.status = s.status ∧ e.state.trace = s.trace ∧
      e.state.freeIndex = s.freeIndex := by
  have hk := execute_ok h
  cases i with
  | add x y => obtain ⟨v, _, rfl⟩ := hk; simp [writeBack]
  | sub x y => obtain ⟨v, _, rfl⟩ := hk; simp [writeBack]
  | nop => simp only at hk; subst hk; simp
  | jmp t => simp only at hk; subst hk; simp

/-- The value of a valid register index (10_state.md R19). -/
theorem regRead_valid {s : State} {x : Byte} (h : x.toNat < numRegs) :
    regRead s x.toNat = .ok (if x = 0 then s.r0 else s.r1) := by
  simp only [numRegs] at h
  obtain ⟨h0, e⟩ | ⟨h1, e⟩ | ⟨h2, _⟩ := regRead_cases s x.toNat
  · rw [e, if_pos (BitVec.eq_of_toNat_eq (by simpa using h0))]
  · rw [e, if_neg (by rintro rfl; simp at h1)]
  · omega

/-- The operands of ADD and SUB when both indices are valid. -/
theorem regOperands_valid {s : State} {x y : Byte} (hx : x.toNat < numRegs) (hy : y.toNat < numRegs) :
    regOperands s x y = .ok (if x = 0 then s.r0 else s.r1, if y = 0 then s.r0 else s.r1) := by
  simp [regOperands, regOperand, regRead_valid hx, regRead_valid hy]

/-! ## The encoder and the decoder -/

theorem encode_length (i : Instr) : (encode i).length = instrWidth i := by
  cases i <;> rfl

theorem encode_ne_nil (i : Instr) : encode i ≠ [] := by
  cases i <;> simp [encode]

theorem instrWidth_pos (i : Instr) : 0 < instrWidth i := by
  cases i <;> simp [instrWidth]

/-- Decoding where the bytes of an instruction stand. -/
theorem decodeAt_of_bytes {i : Instr} {m : Memory} {a : Nat} (ha : a + instrWidth i ≤ memSize)
    (hg : ∀ k < instrWidth i, (encode i)[k]? = some (memGet m (a + k))) : decodeAt m a = .ok (i, instrWidth i) := by
  have hlt : ¬ memSize ≤ a := by have := instrWidth_pos i; omega
  have h0 := hg 0 (instrWidth_pos i)
  rw [Nat.add_zero] at h0
  rw [decodeAt_eq, if_neg hlt]
  cases i with
  | add x y =>
    have h1 := hg 1 (by simp [instrWidth])
    have h2 := hg 2 (by simp [instrWidth])
    simp only [encode, List.getElem?_cons_zero, List.getElem?_cons_succ, Option.some.injEq] at h0 h1 h2
    rw [← h1, ← h2, if_pos h0.symm, if_pos (by exact ha)]; rfl
  | sub x y =>
    have h1 := hg 1 (by simp [instrWidth])
    have h2 := hg 2 (by simp [instrWidth])
    simp only [encode, List.getElem?_cons_zero, List.getElem?_cons_succ, Option.some.injEq] at h0 h1 h2
    rw [← h1, ← h2, if_neg (by rw [← h0]; decide), if_pos h0.symm, if_pos (by exact ha)]; rfl
  | nop =>
    simp only [encode, List.getElem?_cons_zero, Option.some.injEq] at h0
    rw [if_neg (by rw [← h0]; decide), if_neg (by rw [← h0]; decide),
      if_pos h0.symm]; rfl
  | jmp t =>
    have h1 := hg 1 (by simp [instrWidth])
    simp only [encode, List.getElem?_cons_zero, List.getElem?_cons_succ, Option.some.injEq] at h0 h1
    rw [← h1, if_neg (by rw [← h0]; decide), if_neg (by rw [← h0]; decide),
      if_neg (by rw [← h0]; decide), if_pos h0.symm, if_pos (by exact ha)]; rfl

/-! ## One iteration of `execute_command()` at a time (45_sequencer.md R84) -/

/-- The loop ends at once on a halted machine. -/
theorem hostExecuteCommand_halted {s : State} {n : Nat} (h : memSize ≤ s.pc.toNat) :
    hostExecuteCommand n s = .returned .nothing s := by
  have hh : halted s = true := decide_eq_true h
  cases n <;> simp [hostExecuteCommand, hh]

/-- No iteration watched: the call is still running. -/
theorem hostExecuteCommand_zero {s : State} (h : s.pc.toNat < memSize) : hostExecuteCommand 0 s = .stillRunning s := by
  have hh : halted s = false := decide_eq_false (Nat.not_le.2 h)
  simp [hostExecuteCommand, hh]

/-- An iteration that completes: the loop goes on from its next state. -/
theorem hostExecuteCommand_runnable {s t : State} {n : Nat} (h : s.pc.toNat < memSize) (hs : step s = .next t)
    (ht : t.status = .runnable) : hostExecuteCommand (n + 1) s = hostExecuteCommand n t := by
  have hh : halted s = false := decide_eq_false (Nat.not_le.2 h)
  simp [hostExecuteCommand, hh, hs, ht]

/-- An iteration that faults: the call ends in the fault outcome. -/
theorem hostExecuteCommand_faulted {s t : State} {n : Nat} {f : Fault} (h : s.pc.toNat < memSize)
    (hs : step s = .next t) (ht : t.status = .faulted f) : hostExecuteCommand (n + 1) s = .faulted f t := by
  have hh : halted s = false := decide_eq_false (Nat.not_le.2 h)
  simp [hostExecuteCommand, hh, hs, ht]

/-- A RUNNABLE machine always has a next state. -/
theorem step_of_runnable {s : State} (h : s.status = .runnable) : ∃ t, step s = .next t := by
  by_cases hp : memSize ≤ s.pc.toNat
  · exact ⟨s, step_halted h hp⟩
  · cases hd : decodeAt s.mem s.pc.toNat with
    | error f => exact ⟨_, step_decodeFault h (by omega) hd⟩
    | ok r =>
      rw [step_decoded h (by omega) (i := r.1) (w := r.2) hd]
      cases execute r.1 s <;> exact ⟨_, rfl⟩

/-! ## A host's calls one after another (00_scope.md R12) -/

@[simp] theorem idle_state (s : State) : (HostProgress.idle s).state = s := rfl
@[simp] theorem busy_state (s : State) (rest : List HostOp) : (HostProgress.busy s rest).state = s := rfl
@[simp] theorem hostDrive_nil (s : State) : hostDrive [] s = .idle s := rfl

/-- All that one call of a host can do: stay inside an operation that has not ended, or complete it and go on from the
state it left. -/
theorem hostDrive_cons_cases (op : HostOp) (ops : List HostOp) (s : State) :
    (∃ t, hostCall op s = .stillRunning t ∧ hostDrive (op :: ops) s = .busy t ops) ∨
      ((∀ t, hostCall op s ≠ .stillRunning t) ∧
        hostDrive (op :: ops) s = hostDrive ops (stateAfter s (hostCall op s))) := by
  cases h : hostCall op s with
  | stillRunning t => exact .inl ⟨t, rfl, by rw [hostDrive, h]⟩
  | _ => exact .inr ⟨by simp, by rw [hostDrive, h]; rfl⟩

end Sys2Proof.Machine
end

