-- ==== Sys2Proof/Laws/PerInstr.lean ====
section
/-!
SUPPORT. Statements made for every instruction, one lemma per constructor of Instr.
-/

namespace Sys2Proof.Laws.RoundTrip

/-- The encoder's bytes, whatever bytes follow them, decode to the instruction with its width (30_encoding.md R58, R60). -/
def Statement (i : Instr) : Prop :=
  (encode i).length = instrWidth i ∧ ∀ rest, decode (encode i ++ rest) = .ok (i, instrWidth i)

theorem add (x y : Byte) : Statement (.add x y) := ⟨rfl, fun _ => rfl⟩

theorem sub (x y : Byte) : Statement (.sub x y) := ⟨rfl, fun _ => rfl⟩

theorem nop : Statement .nop := ⟨rfl, fun _ => rfl⟩

theorem jmp (t : Byte) : Statement (.jmp t) := ⟨rfl, fun _ => rfl⟩

end Sys2Proof.Laws.RoundTrip
end

