-- ==== Sys2Proof/Tests/Slice0.lean ====
section
/-!
SUPPORT. Tests of one step each, with expected results from spec/95_test_vectors.md, and for every statement that has
hypotheses a concrete state and operands that meet them together (`witness_<statement>`).
-/

namespace Sys2Proof.Tests

open Sys2Proof.Machine

/-- A RUNNABLE state with this memory, registers and pc, and no trace. -/
def st (m : Memory) (r0 r1 pc : Byte) : State := { State.reset with mem := m, r0 := r0, r1 := r1, pc := pc }

/-- The next state of a step, if it answers one. -/
def nextOf : Host.Outcome State Fault Refusal → Option State
  | .next t => some t
  | .fault _ => none
  | .refused _ => none

/-- What 95_test_vectors.md L2 shows of a state: `R`, `pc`, `status`, `trace`. -/
def seen (o : Host.Outcome State Fault Refusal) : Option (Byte × Byte × Byte × Status × List Byte) :=
  (nextOf o).map fun t => (t.r0, t.r1, t.pc, t.status, t.trace)

/-- The bytes 01 00 01 at address 0 (L1.1). -/
def addMem : Memory := [(0, 0x01#8), (2, 0x01#8)]

/-! ## WellFormed: one ill-formed term for each check -/

theorem test_wellFormed_refuses_add_x : (Instr.add 2#8 0#8).wellFormed = false := by decide
theorem test_wellFormed_refuses_add_y : (Instr.add 0#8 2#8).wellFormed = false := by decide
theorem test_wellFormed_refuses_sub_x : (Instr.sub 255#8 1#8).wellFormed = false := by decide
theorem test_wellFormed_refuses_sub_y : (Instr.sub 1#8 2#8).wellFormed = false := by decide
theorem test_wellFormed_refuses_jmp_target : (Instr.jmp 64#8).wellFormed = false := by decide
theorem test_wellFormed_accepts :
    (Instr.add 0#8 1#8).wellFormed ∧ (Instr.sub 1#8 0#8).wellFormed ∧ Instr.nop.wellFormed ∧
      (Instr.jmp 63#8).wellFormed := by decide

/-! ## Decoding, on bytes written out from 30_encoding.md R51 and R54 (L2.5) -/

theorem test_decode_add : decode [0b00000001#8, 0b00000000#8, 0b00000001#8] = .ok (.add 0#8 1#8, 3) := by decide
theorem test_decode_sub : decode [0b00000010#8, 0b00000001#8, 0b00000000#8] = .ok (.sub 1#8 0#8, 3) := by decide
theorem test_decode_nop : decode [0b00000011#8] = .ok (.nop, 1) := by decide
theorem test_decode_jmp : decode [0b00000100#8, 0b00111111#8] = .ok (.jmp 63#8, 2) := by decide
theorem test_decode_unchecked : decode [0x01#8, 5#8, 7#8] = .ok (.add 5#8 7#8, 3) := by decide
theorem test_decode_illegal :
    decode [0x00#8] = .error (.illegal 0x00#8) ∧ decode [0x05#8] = .error (.illegal 0x05#8) ∧
      decode [0xFF#8] = .error (.illegal 0xFF#8) := by decide
theorem test_decode_short :
    decode [] = .error (.missing 0) ∧ decode [0x01#8] = .error (.missing 1) ∧
      decode [0x01#8, 0x00#8] = .error (.missing 2) ∧ decode [0x04#8] = .error (.missing 1) := by decide
theorem test_tableWord :
    decodeTableWord 24 0x010002 = some (.sub 0#8 1#8) ∧ decodeTableWord 8 0x01 = some (.add 0#8 0#8) ∧
      decodeTableWord 16 0xC804 = some (.jmp 200#8) ∧ decodeTableWord 8 0xFF = none := by decide
theorem test_withFetchWord_runs_add :
    seen (step (State.reset.withFetchWord 24 0x010001)) = some (0, 0, 3, .runnable, [0]) := by decide
theorem test_withFetchWord_runs_nop :
    seen (step (State.reset.withFetchWord 8 0x03)) = some (0, 0, 1, .runnable, [0]) := by decide
theorem test_withFetchWord_runs_jmp :
    seen (step (State.reset.withFetchWord 16 0x3D04)) = some (0, 0, 61, .runnable, [0]) := by decide

/-! ## One step each (L1.1, L2.1 to L2.4) -/

theorem test_add_section8 : seen (step (st addMem 5 10 0)) = some (15, 10, 3, .runnable, [15]) := by decide
theorem test_add_wraps_from_r1 : seen (exec (.add 1 1) (st [] 7 200 61)) = some (144, 200, 64, .runnable, [144]) := by
  decide
theorem test_sub_wraps : seen (exec (.sub 1 0) (st [] 10 3 0)) = some (249, 3, 3, .runnable, [249]) := by decide
theorem test_sub_badIndex :
    seen (exec (.sub 0 2) (st [] 10 3 0)) = some (10, 3, 0, .faulted (.indexOutOfRange .reg 2), []) := by decide
theorem test_nop_at_63 : seen (step (st [(63, 3)] 1 2 63)) = some (1, 2, 64, .runnable, [0]) := by decide
theorem test_jmp_outside : seen (step (st [(0, 4), (1, 255)] 1 2 0)) = some (1, 2, 255, .runnable, [0]) := by decide
theorem test_jmp_straddles :
    seen (step (st [(63, 4)] 1 2 63)) = some (1, 2, 63, .faulted (.indexOutOfRange .mem 64), []) := by decide

/-! ## The host interface (L2.4, L2.6 to L2.8) -/

theorem test_executeAt_jmp :
    hostCall (.executeCommandAt 10) (st [(10, 4), (11, 5)] 1 2 0) =
      .returned (.byte 0) (st [(10, 4), (11, 5)] 1 2 5) := by decide
theorem test_load_overlaps :
    hostCall (.loadCommand 1 .nop) (st addMem 0 0 0) =
      .returned .nothing (st [(0, 1), (1, 3), (2, 1)] 0 0 0) := by decide
theorem test_load_zero_operand :
    hostCall (.loadCommand 0 (.jmp 0)) (st [(0, 1), (1, 9), (2, 1)] 0 0 0) =
      .returned .nothing (st [(0, 4), (2, 1)] 0 0 0) := by decide
theorem test_load_straddles (s : State) (h : s.status = .runnable) :
    hostCall (.loadCommand 64 .nop) s =
      .faulted (.indexOutOfRange .mem 64) (raise (.indexOutOfRange .mem 64) (scramble 64 1 s)) := by
  simp only [hostCall, ifRunnable_runnable h]
  rfl
theorem test_get_after_new : hostCall (.getRegister 0) State.reset = .returned (.byte 0) State.reset := by decide
theorem test_fresh_run_faults :
    hostCall (.executeCommand 1) State.reset =
      .faulted (.invalidOpcode 0 0) (raise (.invalidOpcode 0 0) State.reset) := by decide

/-! ## The assembly notation (L3.1, L3.2) -/

theorem test_asm_line :
    asmLine "loop: sub 0, 1 ; the difference".toList = some [.label "loop".toList, .sub 0#8 1#8] := by decide
theorem test_asm_label_needs_a_blank : asmLine "loop:nop".toList = none := by decide
theorem test_asm_rejects_large : asmLine "jmp 256".toList = none := by decide
theorem test_assemble_labels :
    assemble [.jmp (.label ['x']), .org 61, .label ['x'], .add 1 1] =
      some [(0, 4), (1, 61), (61, 1), (62, 1), (63, 1)] := by decide

/-! ## Witnesses: each statement's hypotheses, met together -/

theorem witness_DecodeSucceedsExactlyOnEncodings :
    decode [0x04#8, 0xFF#8] = .ok (.jmp 0xFF#8, 2) ∧ [0x04#8, 0xFF#8].length = 2 := by decide

theorem witness_LoadedInstructionDecodesBack :
    Memory.wf State.reset.mem = true ∧ hostCall (.loadCommand 61 (.add 9 1)) State.reset =
      .returned .nothing (st [(61, 1), (62, 9), (63, 1)] 0 0 0) := by decide

theorem witness_DecodeDependsOnlyOnTheInstructionBytes :
    decodeAt [(61, 3#8)] 61 = .ok (.nop, 1) ∧
      (∀ k, k < 1 → memRead [(61, 3#8), (62, 9#8)] (61 + k) = memRead [(61, 3#8)] (61 + k)) ∧
      decodeAt [(61, 4#8), (62, 255#8)] 61 = .ok (.jmp 255, 2) ∧
      (∀ k, k < 2 → memRead [(61, 4#8), (62, 255#8), (63, 1#8)] (61 + k) = memRead [(61, 4#8), (62, 255#8)] (61 + k)) := by
  decide

theorem witness_DecodeDependsOnlyOnTheInstructionBytes_window :
    ∀ k, k < 3 → memRead [(61, 3#8)] (61 + k) = memRead [(0, 1#8), (61, 3#8)] (61 + k) := by decide

theorem witness_ReadGivesTheMostRecentWrite :
    Memory.wf [(63, 7#8)] = true ∧ memWrite [(63, 7#8)] 63 0#8 = .ok [] ∧ memWrite [] 0 5#8 = .ok [(0, 5#8)] := by decide

theorem witness_EqualReadsMeanEqualMemories :
    Memory.wf [(0, 1#8), (63, 2#8)] = true ∧
      ∀ a, a < memSize → memRead [(0, 1#8), (63, 2#8)] a = memRead [(0, 1#8), (63, 2#8)] a :=
  ⟨by decide, fun _ _ => rfl⟩

theorem witness_LoadCommandWritesExactlyTheEncoding :
    (st addMem 1 2 0).status = .runnable ∧ Memory.wf (st addMem 1 2 0).mem = true ∧
      61 + instrWidth (.sub 9 200) ≤ memSize ∧ 63 + instrWidth .nop ≤ memSize ∧
      HostOp.getRegister 9 ≠ .new ∧ (∀ a i, HostOp.getRegister 9 ≠ .loadCommand a i) :=
  ⟨by decide, by decide, by decide, by decide, by decide, by simp⟩

theorem witness_AddFollowsItsRule :
    (0#8 : Byte).toNat < 2 ∧ (1#8 : Byte).toNat < 2 ∧ (st [] 255 1 61).pc.toNat + 3 ≤ memSize ∧
      2 ≤ (2#8 : Byte).toNat ∧ (st [] 255 1 61).status = .runnable ∧
      decodeAt [(61, 1#8), (62, 2#8)] 61 = .ok (.add 2#8 0#8, 3) ∧
      execute (.add 2 0) (st [(61, 1#8), (62, 2#8)] 255 1 61) = .error (.indexOutOfRange .reg 2) := by decide

theorem witness_SubFollowsItsRule :
    (0#8 : Byte).toNat < 2 ∧ (1#8 : Byte).toNat < 2 ∧ (st [] 0 1 61).pc.toNat + 3 ≤ memSize ∧
      2 ≤ (2#8 : Byte).toNat ∧ (st [] 0 1 61).status = .runnable ∧
      decodeAt [(61, 2#8), (63, 255#8)] 61 = .ok (.sub 0#8 255#8, 3) ∧
      execute (.sub 0 255) (st [(61, 2#8), (63, 255#8)] 0 1 61) = .error (.indexOutOfRange .reg 255) := by decide

theorem witness_ArithmeticCompletesInTheRunLoop :
    (st [] 200 100 61).status = .runnable ∧ (0#8 : Byte).toNat < 2 ∧ (1#8 : Byte).toNat < 2 ∧
      (st [] 200 100 61).pc.toNat + 3 ≤ memSize := by decide

theorem witness_ArithmeticWithBadIndexEntersTheFault :
    (2 ≤ (2#8 : Byte).toNat ∨ 2 ≤ (0#8 : Byte).toNat) ∧ (2 ≤ (1#8 : Byte).toNat ∨ 2 ≤ (255#8 : Byte).toNat) := by decide

theorem witness_LoadedArithmeticSetsRegisterZeroAndReturnsIt :
    (st [] 5 10 0).status = .runnable ∧ Memory.wf (st [] 5 10 0).mem = true ∧ 61 + 3 ≤ memSize ∧
      (0#8 : Byte).toNat < 2 ∧ (1#8 : Byte).toNat < 2 ∧
      (5#8 : Byte) = (if (0#8 : Byte) = 0 then (st [] 5 10 0).r0 else (st [] 5 10 0).r1) ∧
      (10#8 : Byte) = (if (1#8 : Byte) = 0 then (st [] 5 10 0).r0 else (st [] 5 10 0).r1) := by decide

theorem witness_NopFollowsItsRule :
    (st [(63, 3)] 1 2 63).pc.toNat + 1 ≤ memSize ∧ (st [(63, 3)] 1 2 63).status = .runnable ∧
      (st [(63, 3)] 1 2 63).pc = 63#8 ∧ memRead (st [(63, 3)] 1 2 63).mem 63 = .ok 0x03#8 := by decide

theorem witness_NopCompletesInTheRunLoop :
    (st [(63, 3)] 1 2 63).status = .runnable ∧ (st [(63, 3)] 1 2 63).pc.toNat + 1 ≤ memSize := by decide

theorem witness_JmpFollowsItsRule_at63 : memRead [(63, 4#8)] 63 = .ok 0x04#8 := by decide

theorem witness_JmpFollowsItsRule_outside :
    (st [(62, 4), (63, 64)] 1 2 62).status = .runnable ∧ memRead [(62, 4#8), (63, 64#8)] 62 = .ok 0x04#8 ∧
      memRead [(62, 4#8), (63, 64#8)] (62 + 1) = .ok 64#8 ∧ (st [(62, 4), (63, 64)] 1 2 62).pc.toNat = 62 ∧
      memSize ≤ (64#8 : Byte).toNat := by decide

theorem witness_JmpFollowsItsRule_itself :
    (st [(62, 4), (63, 62)] 1 2 62).status = .runnable ∧ memRead [(62, 4#8), (63, 62#8)] 62 = .ok 0x04#8 ∧
      memRead [(62, 4#8), (63, 62#8)] (62 + 1) = .ok 62#8 ∧ (st [(62, 4), (63, 62)] 1 2 62).pc.toNat = 62 ∧
      62#8 = (st [(62, 4), (63, 62)] 1 2 62).pc := by decide

theorem witness_JmpCompletesInTheRunLoop : (st [] 1 2 0).status = .runnable := by decide

theorem witness_JumpDecodesNextAtItsTarget_inside :
    Memory.wf [(63, 3#8)] = true ∧ hostCall (.loadCommand (st [(63, 3)] 1 2 0).pc.toNat (.jmp 63)) (st [(63, 3)] 1 2 0) =
      .returned .nothing (st [(0, 4), (1, 63), (63, 3)] 1 2 0) ∧
      decodeAt [(0, 4#8), (1, 63#8), (63, 3#8)] (63#8 : Byte).toNat = .ok (.nop, 1) := by decide

theorem witness_JumpDecodesNextAtItsTarget_fault :
    hostCall (.loadCommand (st [] 1 2 0).pc.toNat (.jmp 63)) (st [] 1 2 0) =
      .returned .nothing (st [(0, 4), (1, 63)] 1 2 0) ∧ (63#8 : Byte).toNat < memSize ∧
      decodeAt [(0, 4#8), (1, 63#8)] (63#8 : Byte).toNat = .error (.invalidOpcode 63 0) := by decide

theorem witness_JumpDecodesNextAtItsTarget_outside :
    hostCall (.loadCommand (st [] 1 2 62).pc.toNat (.jmp 64)) (st [] 1 2 62) =
      .returned .nothing (st [(62, 4), (63, 64)] 1 2 62) ∧ memSize ≤ (64#8 : Byte).toNat := by decide

theorem witness_StepRunsTheDecodedInstruction :
    (st [(61, 1), (62, 1), (63, 1)] 3 7 61).status = .runnable ∧
      decodeAt (st [(61, 1), (62, 1), (63, 1)] 3 7 61).mem (st [(61, 1), (62, 1), (63, 1)] 3 7 61).pc.toNat =
        .ok (.add 1 1, 3) ∧
      execute (.add 1 1) (st [(61, 1), (62, 1), (63, 1)] 3 7 61) =
        .ok { state := st [(61, 1), (62, 1), (63, 1)] 14 7 61, result := 14 } := by decide

theorem witness_StepRunsTheDecodedInstruction_fault :
    (st [(0, 1), (1, 2)] 3 7 0).status = .runnable ∧
      decodeAt (st [(0, 1), (1, 2)] 3 7 0).mem (st [(0, 1), (1, 2)] 3 7 0).pc.toNat = .ok (.add 2 0, 3) ∧
      execute (.add 2 0) (st [(0, 1), (1, 2)] 3 7 0) = .error (.indexOutOfRange .reg 2) := by decide

theorem witness_IterationIsExecuteAtThenEmitThenAdvance :
    (st addMem 5 10 0).status = .runnable ∧ (st addMem 5 10 0).pc.toNat < memSize ∧
      hostCall (.executeCommandAt (st addMem 5 10 0).pc.toNat) (st addMem 5 10 0) =
        .returned (.byte 15) (st addMem 15 10 0) := by decide

theorem witness_IterationIsExecuteAtThenEmitThenAdvance_fault :
    (st [(63, 4)] 1 2 63).status = .runnable ∧ (st [(63, 4)] 1 2 63).pc.toNat < memSize ∧
      hostCall (.executeCommandAt (st [(63, 4)] 1 2 63).pc.toNat) (st [(63, 4)] 1 2 63) =
        .faulted (.indexOutOfRange .mem 64) (raise (.indexOutOfRange .mem 64) (st [(63, 4)] 1 2 63)) := by decide

theorem witness_RunLoopAdvancesPcWithoutWrapping :
    decodeAt (st [(63, 3)] 1 2 63).mem (st [(63, 3)] 1 2 63).pc.toNat = .ok (.nop, 1) ∧
      nextOf (step (st [(63, 3)] 1 2 63)) = some { st [(63, 3)] 1 2 64 with trace := [0] } ∧
      decodeAt (st addMem 5 10 0).mem (st addMem 5 10 0).pc.toNat = .ok (.add 0 1, 3) ∧
      nextOf (step (st addMem 5 10 0)) = some { st addMem 15 10 3 with trace := [15] } := by decide

theorem witness_EachCompletedIterationEmitsOneResultByte :
    (st addMem 5 10 0).pc.toNat < memSize ∧
      nextOf (step (st addMem 5 10 0)) = some { st addMem 15 10 3 with trace := [15] } ∧
      (st [] 5 10 63).pc.toNat < memSize ∧
      nextOf (step (st [] 5 10 63)) = some (raise (.invalidOpcode 63 0) (st [] 5 10 63)) := by decide

theorem witness_PcStaysInRangeForTargetsInMemory :
    (st [(0, 4), (1, 63)] 1 2 0).pc.toNat ≤ memSize ∧
      (∀ T w, decodeAt (st [(0, 4), (1, 63)] 1 2 0).mem (st [(0, 4), (1, 63)] 1 2 0).pc.toNat = .ok (.jmp T, w) →
        T.toNat < memSize) ∧
      nextOf (step (st [(0, 4), (1, 63)] 1 2 0)) = some { st [(0, 4), (1, 63)] 1 2 63 with trace := [0] } := by
  refine ⟨by decide, fun T w h => ?_, by decide⟩
  have hd : decodeAt (st [(0, 4), (1, 63)] 1 2 0).mem (st [(0, 4), (1, 63)] 1 2 0).pc.toNat = .ok (.jmp 63, 2) := by
    decide
  rw [hd] at h
  cases h
  decide

theorem witness_PcStaysInRangeForTargetsInMemory_halted :
    (st [] 1 2 64).status = .runnable ∧ (st [] 1 2 64).pc.toNat = memSize := by decide

theorem witness_PcStaysInRangeForTargetsInMemory_outside :
    (st [(0, 4), (1, 64)] 1 2 0).status = .runnable ∧
      decodeAt (st [(0, 4), (1, 64)] 1 2 0).mem (st [(0, 4), (1, 64)] 1 2 0).pc.toNat = .ok (.jmp 64, 2) ∧
      memSize ≤ (64#8 : Byte).toNat := by decide

theorem witness_RunEndsInExactlyOneOfThreeWays :
    State.reset.status = .runnable ∧
      hostCall (.executeCommand 1) (st [(63, 3)] 1 2 63) = .returned .nothing { st [(63, 3)] 1 2 64 with trace := [0] } ∧
      hostCall (.executeCommand 1) State.reset =
        .faulted (.invalidOpcode 0 0) (raise (.invalidOpcode 0 0) State.reset) ∧
      memSize ≤ (st [] 1 2 64).pc.toNat := by decide

theorem witness_InstructionEndingAtMemoryEndHaltsTheRun :
    (st [(61, 1), (62, 1), (63, 1)] 3 7 61).status = .runnable ∧
      decodeAt (st [(61, 1), (62, 1), (63, 1)] 3 7 61).mem (st [(61, 1), (62, 1), (63, 1)] 3 7 61).pc.toNat =
        .ok (.add 1 1, 3) ∧
      (∀ T, Instr.add 1 1 ≠ .jmp T) ∧ (Instr.add 1 1).wellFormed = true ∧
      (st [(61, 1), (62, 1), (63, 1)] 3 7 61).pc.toNat + 3 = memSize :=
  ⟨by decide, by decide, by simp, by decide, by decide⟩

theorem witness_JumpToItselfNeverEnds :
    (st [(62, 4), (63, 62)] 1 2 62).status = .runnable ∧
      decodeAt (st [(62, 4), (63, 62)] 1 2 62).mem (st [(62, 4), (63, 62)] 1 2 62).pc.toNat =
        .ok (.jmp (st [(62, 4), (63, 62)] 1 2 62).pc, 2) := by decide

theorem witness_ExecuteCommandEndDoesNotDependOnTheBound :
    1 ≤ 5 ∧ ∀ t, hostCall (.executeCommand 1) State.reset ≠ .stillRunning t := by
  have h : hostCall (.executeCommand 1) State.reset =
      .faulted (.invalidOpcode 0 0) (raise (.invalidOpcode 0 0) State.reset) := by decide
  exact ⟨by decide, fun t => by rw [h]; simp⟩

theorem witness_NoInstructionTouchesMemory :
    nextOf (exec (.add 0 1) (st addMem 5 10 0)) = some { st addMem 15 10 3 with trace := [15] } := by decide

theorem witness_OnlyRegisterZeroIsWrittenByInstructions :
    execute (.sub 1 1) (st [] 42 9 0) = .ok { state := st [] 0 9 0, result := 0 } ∧
      nextOf (exec (.sub 1 1) (st [] 42 9 0)) = some { st [] 0 9 3 with trace := [0] } ∧
      HostOp.setRegister 0 5 ≠ .new ∧ (∀ v, HostOp.setRegister 0 5 ≠ .setRegister 1 v) :=
  ⟨by decide, by decide, by decide, by simp⟩

theorem witness_NopAndJmpReadNoRegister :
    nextOf (exec .nop (st [] 42 9 0)) = some { st [] 42 9 1 with trace := [0] } ∧
      nextOf (exec (.jmp 64) (st [] 42 9 0)) = some { st [] 42 9 64 with trace := [0] } := by decide

theorem witness_TraceIsOnlyAppendedToAndNeverRead :
    nextOf (step (st addMem 5 10 0)) = some { st addMem 15 10 3 with trace := [15] } ∧
      HostOp.executeCommandAt 0 ≠ .new ∧ (∀ n, HostOp.executeCommandAt 0 ≠ .executeCommand n) :=
  ⟨by decide, by decide, by simp⟩

theorem witness_ExecuteAtReadsNoPcAndWritesItOnlyForJmp :
    hostCall (.executeCommandAt 61) (st [(61, 1), (62, 1), (63, 1)] 3 7 0) =
      .returned (.byte 14) (st [(61, 1), (62, 1), (63, 1)] 14 7 0) := by decide

theorem witness_ExecuteAtReadsNoPcAndWritesItOnlyForJmp_jmp :
    hostCall (.executeCommandAt 62) (st [(62, 4), (63, 255)] 3 7 0) =
      .returned (.byte 0) (st [(62, 4), (63, 255)] 3 7 255) := by decide

theorem witness_SetRegisterThenGetRegister :
    (st [] 1 2 0).status = .runnable ∧ 0 < 2 ∧ 1 < 2 ∧ 2 ≤ 2 := by decide

theorem witness_IllegalOpcodeRaisesInvalidOpcode :
    (st [] 1 2 63).status = .runnable ∧ memRead (st [] 1 2 63).mem 63 = .ok 0x00#8 ∧
      0x00#8 ∉ [0x01#8, 0x02#8, 0x03#8, 0x04#8] ∧ 0x05#8 ∉ [0x01#8, 0x02#8, 0x03#8, 0x04#8] ∧
      (st [] 1 2 63).pc.toNat = 63 ∧ decodeAt [(63, 5#8)] 63 = .error (.invalidOpcode 63 5) := by decide

theorem witness_MemoryIndexOutOfRangeIsFatal :
    (st [(63, 4)] 1 2 0).status = .runnable ∧ memSize ≤ 64 ∧
      memRead (st [(63, 4)] 1 2 0).mem 63 = .ok (opcodeOf (.jmp 0)) ∧ memSize < 63 + instrWidth (.jmp 0) ∧
      memRead [(62, 1#8)] 62 = .ok (opcodeOf (.add 0 0)) ∧ memSize < 62 + instrWidth (.add 0 0) ∧
      memSize < 64 + instrWidth .nop := by decide

theorem witness_RegisterIndexOutOfRangeIsFatal :
    (st [(0, 1), (1, 2)] 3 4 0).status = .runnable ∧ (2 ≤ (2#8 : Byte).toNat ∨ 2 ≤ (0#8 : Byte).toNat) ∧
      decodeAt (st [(0, 1), (1, 2)] 3 4 0).mem 0 = .ok (.add 2 0, 3) ∧
      decodeAt [(0, 2#8), (2, 255#8)] 0 = .ok (.sub 0 255, 3) ∧ 2 ≤ 2 := by decide

theorem witness_FirstFaultInOrderIsReported :
    hostCall (.executeCommandAt 0) (st [(0, 1), (1, 3), (2, 7)] 3 4 0) =
        .faulted (.indexOutOfRange .reg 3) (raise (.indexOutOfRange .reg 3) (st [(0, 1), (1, 3), (2, 7)] 3 4 0)) ∧
      hostCall (.executeCommandAt 62) (st [(62, 1)] 3 4 0) =
        .faulted (.indexOutOfRange .mem 64) (raise (.indexOutOfRange .mem 64) (st [(62, 1)] 3 4 0)) ∧
      hostCall (.executeCommandAt 63) (st [] 3 4 0) =
        .faulted (.invalidOpcode 63 0) (raise (.invalidOpcode 63 0) (st [] 3 4 0)) ∧
      hostCall (.executeCommandAt 64) (st [] 3 4 0) =
        .faulted (.indexOutOfRange .mem 64) (raise (.indexOutOfRange .mem 64) (st [] 3 4 0)) := by decide

theorem witness_FaultsArePrecise :
    (∀ a i, HostOp.fetchCommandAt 64 ≠ .loadCommand a i) ∧ (∀ n, HostOp.fetchCommandAt 64 ≠ .executeCommand n) ∧
      hostCall (.fetchCommandAt 64) (st [] 3 4 0) =
        .faulted (.indexOutOfRange .mem 64) (raise (.indexOutOfRange .mem 64) (st [] 3 4 0)) ∧
      hostCall (.executeCommand 2) (st [(0, 3), (1, 1), (2, 2)] 1 2 0) =
        .faulted (.indexOutOfRange .reg 2)
          (raise (.indexOutOfRange .reg 2) { st [(0, 3), (1, 1), (2, 2)] 1 2 1 with trace := [0] }) :=
  ⟨by simp, by simp, by decide, by decide⟩

theorem witness_StepEntersAFaultByWritingOnlyTheStatus :
    nextOf (step (st [(0, 1), (1, 2)] 3 4 0)) = some (raise (.indexOutOfRange .reg 2) (st [(0, 1), (1, 2)] 3 4 0)) ∧
      (raise (.indexOutOfRange .reg 2) (st [(0, 1), (1, 2)] 3 4 0)).status = .faulted (.indexOutOfRange .reg 2) := by
  decide

theorem witness_FailedEncodeKeepsEverythingItDoesNotCover :
    Memory.wf (st addMem 1 2 0).mem = true ∧
      hostCall (.loadCommand 62 (.add 0 1)) (st addMem 1 2 0) = .faulted (.indexOutOfRange .mem 64)
        (raise (.indexOutOfRange .mem 64) (scramble 62 3 (st addMem 1 2 0))) :=
  ⟨by decide, rfl⟩

/-- A machine that FAULTED at address 0. -/
def dead : State := raise (.invalidOpcode 0 0) State.reset

theorem witness_RefusedExactlyWhenFaulted :
    hostCall (.getRegister 0) dead = .refused .machineFaulted ∧ HostOp.getRegister 0 ≠ .new ∧
      dead.status = .faulted (.invalidOpcode 0 0) := by decide

theorem witness_FaultedStatusIsLeftOnlyByNew :
    dead.status = .faulted (.invalidOpcode 0 0) ∧ HostOp.executeCommand 3 ≠ .new ∧
      HostOp.new ∉ [HostOp.executeCommand 3, .setRegister 0 1] := by decide

theorem witness_UnloadedMemoryFaultsAtOnce :
    (st addMem 1 2 63).status = .runnable ∧
      memRead (st addMem 1 2 63).mem (st addMem 1 2 63).pc.toNat = .ok 0x00#8 := by decide

theorem witness_StepKeepsTheInvariant :
    (st addMem 5 10 0).Inv = true ∧
      nextOf (step (st addMem 5 10 0)) = some { st addMem 15 10 3 with trace := [15] } ∧
      State.reset.Inv = true ∧ nextOf (step State.reset) = some dead := by decide

theorem witness_HostOperationsKeepTheInvariant : (st addMem 5 10 0).Inv = true ∧ dead.Inv = true := by decide

theorem witness_ClosedCodeNeverFaults :
    (st [(0, 4)] 1 2 0).status = .runnable ∧ CodeClosed (st [(0, 4)] 1 2 0).mem (fun a => a = 0) ∧
      (st [(0, 4)] 1 2 0).pc.toNat = 0 := by
  refine ⟨by decide, fun a ha => ?_, by decide⟩
  subst ha
  exact ⟨.jmp 0, 2, by decide, .inl rfl⟩

theorem witness_ClosedCodeNeverFaults_halted :
    (st [(63, 3)] 1 2 64).status = .runnable ∧ CodeClosed (st [(63, 3)] 1 2 64).mem (fun a => a = 63) ∧
      memSize ≤ (st [(63, 3)] 1 2 64).pc.toNat := by
  refine ⟨by decide, fun a ha => ?_, by decide⟩
  subst ha
  exact ⟨.nop, 1, by decide, .inr (by decide)⟩

theorem witness_NoHostOperationBeginsInsideAnother :
    hostDrive [.setRegister 0 9] State.reset = .idle (st [] 9 0 0) ∧
      hostDrive [.setRegister 0 9, .executeCommand 1, .loadCommand 0 .nop] (st [(0, 4)] 1 2 0) =
        .busy { st [(0, 4)] 9 2 0 with trace := [0] } [.loadCommand 0 .nop] := by decide

theorem witness_NoHostOperationBeginsInsideAnother_hangs :
    (st [(0, 4)] 1 2 0).status = .runnable ∧ Hangs (st [(0, 4)] 1 2 0) := by
  refine ⟨by decide, fun n => ?_⟩
  have hp : (0 : Byte).toNat < memSize := by decide
  have key : ∀ n tr, hostExecuteCommand n { st [(0, 4)] 1 2 0 with trace := tr } =
      .stillRunning { st [(0, 4)] 1 2 0 with trace := tr ++ List.replicate n 0 } := by
    intro n
    induction n with
    | zero => intro tr; rw [hostExecuteCommand_zero hp, List.replicate_zero, List.append_nil]
    | succ n ih =>
      intro tr
      have hs : step { st [(0, 4)] 1 2 0 with trace := tr } =
          .next { st [(0, 4)] 1 2 0 with trace := tr ++ [0] } := rfl
      rw [hostExecuteCommand_runnable hp hs rfl, ih, List.replicate_succ, List.append_assoc,
        List.singleton_append]
  exact ⟨_, key n []⟩

end Sys2Proof.Tests
end

/-!
PROOFS. A host that calls operations one after another (00_scope.md R12): only `execute_command()` can be still running,
a sequence of calls can be cut anywhere, and a sequence that has not come to its end is inside one call.
-/

namespace Sys2Proof.Proofs.HostSequences

open Sys2Proof Sys2Proof.Machine

/-! ## Which operations can be still running (45_sequencer.md R88) -/

/-- The check of R75 does not make a call still running. -/
theorem eq_of_ifRunnable_stillRunning {s t : State} {r : HostResult} (h : ifRunnable s r = .stillRunning t) :
    r = .stillRunning t := by
  cases hs : s.status with
  | runnable => rwa [ifRunnable_runnable hs] at h
  | faulted f => simp [ifRunnable, hs] at h

theorem hostSetRegister_ne_stillRunning (i : Nat) (v : Byte) (s t : State) :
    hostSetRegister i v s ≠ .stillRunning t := by
  unfold hostSetRegister
  split <;> simp [hostFault]

theorem hostGetRegister_ne_stillRunning (i : Nat) (s t : State) : hostGetRegister i s ≠ .stillRunning t := by
  unfold hostGetRegister
  split <;> simp [hostFault]

theorem hostLoadCommand_ne_stillRunning (a : Nat) (i : Instr) (s t : State) :
    hostLoadCommand a i s ≠ .stillRunning t := by
  unfold hostLoadCommand
  split <;> simp [hostFault]

theorem hostFetchCommandAt_ne_stillRunning (a : Nat) (s t : State) : hostFetchCommandAt a s ≠ .stillRunning t := by
  unfold hostFetchCommandAt
  split <;> simp [hostFault]

theorem hostExecuteCommandAt_ne_stillRunning (a : Nat) (s t : State) :
    hostExecuteCommandAt a s ≠ .stillRunning t := by
  unfold hostExecuteCommandAt
  split
  · simp [hostFault]
  · split <;> simp [hostFault]

/-- The one operation that may not have completed is `execute_command()`. -/
theorem eq_executeCommand_of_stillRunning {op : HostOp} {s t : State} (h : hostCall op s = .stillRunning t) :
    ∃ n, op = .executeCommand n := by
  cases op with
  | new => simp [hostCall, hostNew] at h
  | setRegister i v => exact absurd (eq_of_ifRunnable_stillRunning h) (hostSetRegister_ne_stillRunning i v s t)
  | getRegister i => exact absurd (eq_of_ifRunnable_stillRunning h) (hostGetRegister_ne_stillRunning i s t)
  | loadCommand a i => exact absurd (eq_of_ifRunnable_stillRunning h) (hostLoadCommand_ne_stillRunning a i s t)
  | fetchCommandAt a => exact absurd (eq_of_ifRunnable_stillRunning h) (hostFetchCommandAt_ne_stillRunning a s t)
  | executeCommandAt a => exact absurd (eq_of_ifRunnable_stillRunning h) (hostExecuteCommandAt_ne_stillRunning a s t)
  | executeCommand n => exact ⟨n, rfl⟩

/-- On a RUNNABLE machine the call of `execute_command()` is the run loop. -/
theorem hostCall_executeCommand_runnable {s : State} {n : Nat} (h : s.status = .runnable) :
    hostCall (.executeCommand n) s = hostExecuteCommand n s :=
  ifRunnable_runnable h _

/-! ## One call, then the others -/

theorem hostDrive_cons_stillRunning {op : HostOp} {ops : List HostOp} {s t : State}
    (h : hostCall op s = .stillRunning t) : hostDrive (op :: ops) s = .busy t ops := by
  rw [hostDrive, h]

/-- An operation that completes: the host goes on from the state it left. -/
theorem hostDrive_cons_completed {op : HostOp} {ops : List HostOp} {s : State}
    (h : ∀ t, hostCall op s ≠ .stillRunning t) :
    hostDrive (op :: ops) s = hostDrive ops (stateAfter s (hostCall op s)) := by
  obtain ⟨t, hr, _⟩ | ⟨_, hd⟩ := hostDrive_cons_cases op ops s
  · exact absurd hr (h t)
  · exact hd

/-! ## A sequence of calls, then more -/

/-- How far a host comes that has come to `p` and has the operations `more` to call after those of `p`: from an idle
state it begins them, and inside a call that has not ended they wait behind the others. -/
def goOn (more : List HostOp) : HostProgress → HostProgress
  | .idle t => hostDrive more t
  | .busy t rest => .busy t (rest ++ more)

theorem hostDrive_append (ops more : List HostOp) (s : State) :
    hostDrive (ops ++ more) s = goOn more (hostDrive ops s) := by
  induction ops generalizing s with
  | nil => rfl
  | cons op ops ih =>
    rw [List.cons_append]
    obtain ⟨t, hr, hd⟩ | ⟨hc, hd⟩ := hostDrive_cons_cases op ops s
    · rw [hd, hostDrive_cons_stillRunning hr]; rfl
    · rw [hd, hostDrive_cons_completed hc, ih]

/-- Where a sequence that has not come to its end stands: all before one call completed, that call is still running,
and what is left is all that comes after it. -/
theorem exists_call_of_hostDrive_busy {ops rest : List HostOp} {s t : State} (h : hostDrive ops s = .busy t rest) :
    ∃ before op u, ops = before ++ op :: rest ∧ hostDrive before s = .idle u ∧ hostCall op u = .stillRunning t := by
  induction ops generalizing s with
  | nil => simp at h
  | cons op ops ih =>
    obtain ⟨t', hr, hd⟩ | ⟨hc, hd⟩ := hostDrive_cons_cases op ops s
    · obtain ⟨rfl, rfl⟩ : t' = t ∧ ops = rest := by simpa using hd.symm.trans h
      exact ⟨[], op, s, rfl, rfl, hr⟩
    · obtain ⟨before, last, u, rfl, hidle, hlast⟩ := ih (hd.symm.trans h)
      exact ⟨op :: before, last, u, rfl, (hostDrive_cons_completed hc).trans hidle, hlast⟩

/-- Settles O52: a sequence of calls is cut by `hostDrive_append`, the call it is inside is found by induction on the
calls, and a run that hangs answers `stillRunning` under every bound. -/
theorem noHostOperationBeginsInsideAnother : Obligations.NoHostOperationBeginsInsideAnother := by
  refine ⟨fun s t ops more hidle => ?_, fun s t ops rest hbusy => ⟨?_, fun more => ?_⟩, fun s n rest hs hhang => ?_⟩
  · rw [hostDrive_append, hidle]; rfl
  · obtain ⟨before, op, u, hops, hbefore, hcall⟩ := exists_call_of_hostDrive_busy hbusy
    obtain ⟨n, rfl⟩ := eq_executeCommand_of_stillRunning hcall
    exact ⟨before, n, u, hops, hbefore, hcall⟩
  · rw [hostDrive_append, hbusy]; rfl
  · obtain ⟨t, hrun⟩ := hhang n
    exact ⟨t, hostDrive_cons_stillRunning ((hostCall_executeCommand_runnable hs).trans hrun)⟩

end Sys2Proof.Proofs.HostSequences

/-!
PROOFS. The canonical form of a memory is one form (10_state.md R17): a memory in it is determined by what it reads as.
-/

namespace Sys2Proof.Proofs.CanonicalMemory

open Sys2Proof Sys2Proof.Machine

theorem memGet_cons_self (a : Nat) (b : Byte) (m : Memory) : memGet ((a, b) :: m) a = b := by
  simp [memGet]

theorem memGet_cons_of_ne {a k : Nat} (b : Byte) (m : Memory) (h : k ≠ a) : memGet ((a, b) :: m) k = memGet m k := by
  simp [memGet, h.symm]

/-- A memory in canonical form that reads as unlisted everywhere lists nothing. -/
theorem eq_nil_of_memGet_unlisted {lo : Nat} {m : Memory} (h : Memory.wfFrom lo m = true)
    (hget : ∀ k < memSize, memGet m k = unlistedByte) : m = [] := by
  cases m with
  | nil => rfl
  | cons c m =>
    obtain ⟨a, b⟩ := c
    obtain ⟨_, ha, hb, _⟩ := wfFrom_cons.1 h
    exact absurd (by simpa [memGet_cons_self] using hget a ha) hb

/-- Of two canonical memories that read alike, the second lists nothing before the first address of the first. -/
theorem first_le_first {lo lo' a a' : Nat} {b b' : Byte} {m m' : Memory}
    (h : Memory.wfFrom lo ((a, b) :: m) = true) (h' : Memory.wfFrom lo' ((a', b') :: m') = true)
    (hget : ∀ k < memSize, memGet ((a, b) :: m) k = memGet ((a', b') :: m') k) : a ≤ a' := by
  obtain ⟨_, hrest⟩ := wfFrom_cons.1 h
  obtain ⟨_, ha', hb', _⟩ := wfFrom_cons.1 h'
  by_contra hlt
  have hbelow : memGet ((a, b) :: m) a' = unlistedByte :=
    memGet_below (wfFrom_cons.2 ⟨le_rfl, hrest⟩) (by omega)
  exact hb' (by rw [← memGet_cons_self a' b' m', ← hget a' ha', hbelow])

theorem eq_of_memGet_eq {lo : Nat} {m m' : Memory} (h : Memory.wfFrom lo m = true) (h' : Memory.wfFrom lo m' = true)
    (hget : ∀ k < memSize, memGet m k = memGet m' k) : m = m' := by
  induction m generalizing lo m' with
  | nil => exact (eq_nil_of_memGet_unlisted h' fun k hk => (hget k hk).symm).symm
  | cons c m ih =>
    obtain ⟨a, b⟩ := c
    cases m' with
    | nil => exact eq_nil_of_memGet_unlisted h hget
    | cons c' m' =>
      obtain ⟨a', b'⟩ := c'
      obtain rfl : a = a' :=
        le_antisymm (first_le_first h h' hget) (first_le_first h' h fun k hk => (hget k hk).symm)
      obtain ⟨_, ha, _, hm⟩ := wfFrom_cons.1 h
      obtain ⟨_, _, _, hm'⟩ := wfFrom_cons.1 h'
      obtain rfl : b = b' := by simpa only [memGet_cons_self] using hget a ha
      have htail : ∀ k < memSize, memGet m k = memGet m' k := by
        intro k hk
        by_cases hka : k = a
        · rw [memGet_below hm (by omega), memGet_below hm' (by omega)]
        · simpa only [memGet_cons_of_ne b _ hka] using hget k hk
      rw [ih hm hm' htail]

/-- Settles O8: two canonical memories that read alike list the same first address with the same byte, and so on. -/
theorem equalReadsMeanEqualMemories : Obligations.EqualReadsMeanEqualMemories := by
  intro m m' h h' hread
  refine eq_of_memGet_eq h h' fun k hk => ?_
  simpa only [memRead_eq, if_neg (Nat.not_le.2 hk), Except.ok.injEq] using hread k hk

end Sys2Proof.Proofs.CanonicalMemory

/-!
PROOFS. What an executed instruction reads and writes (10_state.md R18, R20, R21): the part of the state that no
execution reads can be changed beforehand, with the same effect on everything else.
-/

namespace Sys2Proof.Proofs.ExecutionFrame

open Sys2Proof Sys2Proof.Machine

/-! ## Updates that no execution sees -/

/-- The update `g` changes nothing that `Execute` reads or writes: no register, and not `pc` (45_sequencer.md R81). -/
structure Unseen (g : State → State) : Prop where
  regRead_eq : ∀ s i, regRead (g s) i = regRead s i
  wr0_comm : ∀ s v, wr0 (g s) v = g (wr0 s v)
  setPc_comm : ∀ s t, setPc (g s) t = g (setPc s t)

/-- The same machine with another memory. -/
def withMem (m : Memory) (s : State) : State := { s with mem := m }

/-- The same machine with another trace. -/
def withTrace (tr : List Byte) (s : State) : State := { s with trace := tr }

theorem unseen_withMem (m : Memory) : Unseen (withMem m) := ⟨fun _ _ => rfl, fun _ _ => rfl, fun _ _ => rfl⟩

theorem unseen_withTrace (tr : List Byte) : Unseen (withTrace tr) := ⟨fun _ _ => rfl, fun _ _ => rfl, fun _ _ => rfl⟩

theorem regOperands_unseen {g : State → State} (hg : Unseen g) (s : State) (x y : Byte) :
    regOperands (g s) x y = regOperands s x y := by
  simp only [regOperands, regOperand, hg.regRead_eq]

/-- An execution that completes does the same after an update that it does not see. -/
theorem execute_unseen_ok {g : State → State} (hg : Unseen g) {i : Instr} {s : State} {e : Executed}
    (h : execute i s = .ok e) : execute i (g s) = .ok { state := g e.state, result := e.result } := by
  have hk := execute_ok h
  cases i with
  | add x y =>
    obtain ⟨v, hv, rfl⟩ := hk
    simp only [execute, bodyAdd, regOperands_unseen hg, hv, writeBack, hg.wr0_comm]
  | sub x y =>
    obtain ⟨v, hv, rfl⟩ := hk
    simp only [execute, bodySub, regOperands_unseen hg, hv, writeBack, hg.wr0_comm]
  | nop => cases hk; rfl
  | jmp t => cases hk; simp only [execute, bodyJmp, hg.setPc_comm, jumpTarget]

/-- An execution that faults faults alike after an update that it does not see. -/
theorem execute_unseen_error {g : State → State} (hg : Unseen g) {i : Instr} {s : State} {f : Fault}
    (h : execute i s = .error f) : execute i (g s) = .error f := by
  cases i with
  | add x y =>
    obtain ⟨v, _, he⟩ | ⟨f', hf, he⟩ := bodyAdd_cases x y s <;> rw [execute, he] at h <;> cases h
    simp only [execute, bodyAdd, regOperands_unseen hg, hf]
  | sub x y =>
    obtain ⟨v, _, he⟩ | ⟨f', hf, he⟩ := bodySub_cases x y s <;> rw [execute, he] at h <;> cases h
    simp only [execute, bodySub, regOperands_unseen hg, hf]
  | nop => cases h
  | jmp t => cases h

/-! ## The run loop's iteration around an execution -/

/-- All that an iteration of the run loop can do once its instruction is decoded. -/
theorem exec_next_cases {i : Instr} {s t : State} (h : exec i s = .next t) :
    (∃ f, execute i s = .error f ∧ t = raise f s) ∨
      (∃ e, execute i s = .ok e ∧ t = setPc (emit e.state e.result) (nextPc s.pc i)) :=
  retire_cases ((exec_eq_retire i s).symm.trans h)

theorem exec_of_execute_ok {i : Instr} {s : State} {e : Executed} (h : execute i s = .ok e) :
    exec i s = .next (setPc (emit e.state e.result) (nextPc s.pc i)) := by
  rw [exec_eq_retire, h]; rfl

theorem exec_of_execute_error {i : Instr} {s : State} {f : Fault} (h : execute i s = .error f) :
    exec i s = .next (raise f s) := by
  rw [exec_eq_retire, h]; rfl

theorem execute_keeps_r1 {i : Instr} {s : State} {e : Executed} (h : execute i s = .ok e) : e.state.r1 = s.r1 := by
  obtain ⟨_, hr1, _⟩ := execute_frame h
  exact hr1

theorem execute_keeps_trace {i : Instr} {s : State} {e : Executed} (h : execute i s = .ok e) :
    e.state.trace = s.trace := by
  obtain ⟨_, _, _, htrace, _⟩ := execute_frame h
  exact htrace

theorem exec_keeps_r1 {i : Instr} {s t : State} (h : exec i s = .next t) : t.r1 = s.r1 := by
  obtain ⟨f, _, rfl⟩ | ⟨e, he, rfl⟩ := exec_next_cases h
  · rfl
  · exact execute_keeps_r1 he

theorem exec_keeps_mem {i : Instr} {s t : State} (h : exec i s = .next t) : t.mem = s.mem := by
  obtain ⟨f, _, rfl⟩ | ⟨e, he, rfl⟩ := exec_next_cases h
  · rfl
  · obtain ⟨hmem, _⟩ := execute_frame he
    exact hmem

/-- An iteration does the same over any other memory. -/
theorem exec_withMem {i : Instr} {s t : State} (m : Memory) (h : exec i s = .next t) :
    exec i (withMem m s) = .next (withMem m t) := by
  obtain ⟨f, hf, rfl⟩ | ⟨e, he, rfl⟩ := exec_next_cases h
  · exact exec_of_execute_error (execute_unseen_error (unseen_withMem m) hf)
  · exact exec_of_execute_ok (execute_unseen_ok (unseen_withMem m) he)

/-- Settles O30: an execution writes no memory, and another memory is an update that it does not see. -/
theorem noInstructionTouchesMemory : Obligations.NoInstructionTouchesMemory :=
  fun _ _ _ h => ⟨exec_keeps_mem h, fun m => exec_withMem m h⟩

/-- Settles O32: the next states of NOP and JMP name neither register. -/
theorem nopAndJmpReadNoRegister : Obligations.NopAndJmpReadNoRegister := by
  rintro s t i a b (rfl | ⟨T, rfl⟩) h
  · cases h; rfl
  · cases h; rfl

/-! ## Steps -/

/-- A step executes the instruction decoded at `pc`. -/
theorem step_eq_exec {s : State} {i : Instr} {w : Nat} (h : s.status = .runnable) (hp : s.pc.toNat < memSize)
    (hd : decodeAt s.mem s.pc.toNat = .ok (i, w)) : step s = exec i s := by
  rw [step_decoded h hp hd, exec_eq_retire]

theorem step_keeps_r1 {s t : State} (h : step s = .next t) : t.r1 = s.r1 := by
  obtain ⟨_, ⟨_, rfl⟩ | ⟨_, ⟨f, _, rfl⟩ | ⟨i, w, _, ⟨f, _, rfl⟩ | ⟨e, he, rfl⟩⟩⟩⟩ := step_next_cases h
  · rfl
  · rfl
  · rfl
  · exact execute_keeps_r1 he

/-- A step appends at most one event, the same one whatever the trace holds (10_state.md R31). -/
theorem step_trace {s t : State} (h : step s = .next t) :
    ∃ ev : List Byte, ev.length ≤ 1 ∧ t.trace = s.trace ++ ev ∧
      ∀ tr, step (withTrace tr s) = .next (withTrace (tr ++ ev) t) := by
  obtain ⟨hs, ⟨hp, rfl⟩ | ⟨hp, ⟨f, hd, rfl⟩ | ⟨i, w, hd, ⟨f, hf, rfl⟩ | ⟨e, he, rfl⟩⟩⟩⟩ := step_next_cases h
  · refine ⟨[], by simp, by simp, fun tr => ?_⟩
    rw [List.append_nil]
    exact step_halted hs hp
  · refine ⟨[], by simp, by simp, fun tr => ?_⟩
    rw [List.append_nil]
    exact step_decodeFault hs hp hd
  · refine ⟨[], by simp, by simp, fun tr => ?_⟩
    rw [List.append_nil, step_eq_exec (s := withTrace tr s) hs hp hd]
    exact exec_of_execute_error (execute_unseen_error (unseen_withTrace tr) hf)
  · refine ⟨[e.result], by simp, by simp [execute_keeps_trace he], fun tr => ?_⟩
    rw [step_eq_exec (s := withTrace tr s) hs hp hd]
    exact exec_of_execute_ok (execute_unseen_ok (unseen_withTrace tr) he)

/-- NextPC of an instruction inside memory is in memory or just past its end, unless it is a jump outside. -/
theorem nextPc_le_memSize {a : Byte} {i : Instr} (hw : a.toNat + instrWidth i ≤ memSize)
    (hj : ∀ T, i = .jmp T → T.toNat < memSize) : (nextPc a i).toNat ≤ memSize := by
  have hnext := nextPc_toNat a i hw
  cases i with
  | add x y => exact hnext.trans_le hw
  | sub x y => exact hnext.trans_le hw
  | nop => exact hnext.trans_le hw
  | jmp T => exact hnext.trans_le (hj T rfl).le

theorem step_pc_le_memSize {s t : State} (hpc : s.pc.toNat ≤ memSize)
    (hj : ∀ T w, decodeAt s.mem s.pc.toNat = .ok (.jmp T, w) → T.toNat < memSize) (h : step s = .next t) :
    t.pc.toNat ≤ memSize := by
  obtain ⟨_, ⟨_, rfl⟩ | ⟨_, ⟨f, _, rfl⟩ | ⟨i, w, hd, ⟨f, _, rfl⟩ | ⟨e, _, rfl⟩⟩⟩⟩ := step_next_cases h
  · exact hpc
  · exact hpc
  · exact hpc
  · obtain ⟨rfl, hw⟩ := decodeAt_width hd
    exact nextPc_le_memSize hw fun T hT => hj T _ (hT ▸ hd)

/-- JMP in the run loop (41_control.md R71): an event 0, and `pc` at the target. -/
theorem step_jmp {s : State} {T : Byte} {w : Nat} (hs : s.status = .runnable)
    (hd : decodeAt s.mem s.pc.toNat = .ok (.jmp T, w)) : step s = .next (setPc (emit s 0) T) := by
  obtain ⟨rfl, hw⟩ := decodeAt_width hd
  have hp : s.pc.toNat < memSize := by
    have := instrWidth_pos (.jmp T)
    omega
  rw [step_eq_exec hs hp hd]
  rfl

end Sys2Proof.Proofs.ExecutionFrame

/-!
PROOFS. What each host operation leaves (45_sequencer.md R74): the states a single operation can show, and what a run
keeps because every step keeps it. From these: who writes `R[1]`, `pc`, the trace and the status (10_state.md R20, R26,
R27, R30, R31).
-/

namespace Sys2Proof.Proofs.HostFrame

open Sys2Proof Sys2Proof.Machine Sys2Proof.Proofs.HostSequences Sys2Proof.Proofs.ExecutionFrame

/-! ## Single operations -/

/-- The check of R75 either passes the operation or leaves the state as it is. -/
theorem stateAfter_ifRunnable (s : State) (r : HostResult) :
    stateAfter s (ifRunnable s r) = s ∨ stateAfter s (ifRunnable s r) = stateAfter s r := by
  cases hs : s.status with
  | runnable => exact .inr (by rw [ifRunnable_runnable hs])
  | faulted f => exact .inl (by rw [ifRunnable_faulted hs]; rfl)

@[simp] theorem stateAfter_hostFault (u : State) (f : Fault) (s : State) :
    stateAfter u (hostFault f s) = raise f s := rfl

/-- All the states that `set_register` can leave (R77). -/
theorem setRegister_leaves (i : Nat) (v : Byte) (s : State) :
    stateAfter s (hostCall (.setRegister i v) s) = s ∨
      (i = 0 ∧ stateAfter s (hostCall (.setRegister i v) s) = { s with r0 := v }) ∨
      (i = 1 ∧ stateAfter s (hostCall (.setRegister i v) s) = { s with r1 := v }) ∨
      ∃ f, stateAfter s (hostCall (.setRegister i v) s) = raise f s := by
  simp only [hostCall]
  obtain h | h := stateAfter_ifRunnable s (hostSetRegister i v s)
  · exact .inl h
  · rw [h, hostSetRegister]
    obtain ⟨hi, hw⟩ | ⟨hi, hw⟩ | ⟨_, hw⟩ := regWrite_cases s i v <;> rw [hw]
    · exact .inr (.inl ⟨hi, rfl⟩)
    · exact .inr (.inr (.inl ⟨hi, rfl⟩))
    · exact .inr (.inr (.inr ⟨_, rfl⟩))

/-- All the states that `get_register` can leave (R78). -/
theorem getRegister_leaves (i : Nat) (s : State) :
    stateAfter s (hostCall (.getRegister i) s) = s ∨ ∃ f, stateAfter s (hostCall (.getRegister i) s) = raise f s := by
  simp only [hostCall]
  obtain h | h := stateAfter_ifRunnable s (hostGetRegister i s)
  · exact .inl h
  · rw [h, hostGetRegister]
    cases regRead s i with
    | error f => exact .inr ⟨f, rfl⟩
    | ok v => exact .inl rfl

/-- All the states that `load_command` can leave (R79, 60_exceptions.md R98). -/
theorem loadCommand_leaves (a : Nat) (i : Instr) (s : State) :
    stateAfter s (hostCall (.loadCommand a i) s) = s ∨
      (∃ m, stateAfter s (hostCall (.loadCommand a i) s) = { s with mem := m }) ∨
      ∃ f, stateAfter s (hostCall (.loadCommand a i) s) = raise f (scramble a (instrWidth i) s) := by
  simp only [hostCall]
  obtain h | h := stateAfter_ifRunnable s (hostLoadCommand a i s)
  · exact .inl h
  · rw [h, hostLoadCommand]
    cases storeBytes s.mem a (encode i) with
    | error f => exact .inr (.inr ⟨f, rfl⟩)
    | ok m => exact .inr (.inl ⟨m, rfl⟩)

/-- All the states that `fetch_command_at` can leave (R80). -/
theorem fetchCommandAt_leaves (a : Nat) (s : State) :
    stateAfter s (hostCall (.fetchCommandAt a) s) = s ∨
      ∃ f, stateAfter s (hostCall (.fetchCommandAt a) s) = raise f s := by
  simp only [hostCall]
  obtain h | h := stateAfter_ifRunnable s (hostFetchCommandAt a s)
  · exact .inl h
  · rw [h, hostFetchCommandAt]
    cases decodeAt s.mem a with
    | error f => exact .inr ⟨f, rfl⟩
    | ok r => exact .inl rfl

/-- All the states that `execute_command_at` can leave (R81). -/
theorem executeCommandAt_leaves (a : Nat) (s : State) :
    stateAfter s (hostCall (.executeCommandAt a) s) = s ∨
      (∃ f, stateAfter s (hostCall (.executeCommandAt a) s) = raise f s) ∨
      ∃ i e, execute i s = .ok e ∧ stateAfter s (hostCall (.executeCommandAt a) s) = e.state := by
  simp only [hostCall]
  obtain h | h := stateAfter_ifRunnable s (hostExecuteCommandAt a s)
  · exact .inl h
  · rw [h, hostExecuteCommandAt]
    cases decodeAt s.mem a with
    | error f => exact .inr (.inl ⟨f, rfl⟩)
    | ok r =>
      obtain ⟨i, w⟩ := r
      cases he : execute i s with
      | error f => exact .inr (.inl ⟨f, by simp only [he, stateAfter_hostFault]⟩)
      | ok e => exact .inr (.inr ⟨i, e, he, by simp only [he, stateAfter]⟩)

/-! ## Runs: what every step keeps, `execute_command()` keeps -/

/-- A property that every step keeps holds of the state that a watched run shows. -/
theorem hostExecuteCommand_keeps {P : State → Prop} (hstep : ∀ s t, P s → step s = .next t → P t) (n : Nat)
    {s u : State} (hs : s.status = .runnable) (hP : P s) : P (stateAfter u (hostExecuteCommand n s)) := by
  induction n generalizing s with
  | zero =>
    by_cases hp : memSize ≤ s.pc.toNat
    · rwa [hostExecuteCommand_halted hp]
    · rwa [hostExecuteCommand_zero (by omega)]
  | succ n ih =>
    by_cases hp : memSize ≤ s.pc.toNat
    · rwa [hostExecuteCommand_halted hp]
    · obtain ⟨t, ht⟩ := step_of_runnable hs
      cases hst : t.status with
      | runnable =>
        rw [hostExecuteCommand_runnable (by omega) ht hst]
        exact ih hst (hstep s t hP ht)
      | faulted f =>
        rw [hostExecuteCommand_faulted (by omega) ht hst]
        exact hstep s t hP ht

/-- The same for the call as the host makes it: on a FAULTED machine it is refused and leaves the state as it is. -/
theorem executeCommand_keeps {P : State → Prop} (hstep : ∀ s t, P s → step s = .next t → P t) (n : Nat)
    {s : State} (hP : P s) : P (stateAfter s (hostCall (.executeCommand n) s)) := by
  cases hs : s.status with
  | runnable =>
    rw [hostCall_executeCommand_runnable hs]
    exact hostExecuteCommand_keeps hstep n hs hP
  | faulted f =>
    rw [hostCall, ifRunnable_faulted hs]
    exact hP

theorem executeCommand_keeps_r1 (n : Nat) (s : State) :
    (stateAfter s (hostCall (.executeCommand n) s)).r1 = s.r1 :=
  executeCommand_keeps (P := fun t => t.r1 = s.r1) (fun _ _ h ht => (step_keeps_r1 ht).trans h) n rfl

theorem executeCommand_appends (n : Nat) (s : State) :
    ∃ ev, (stateAfter s (hostCall (.executeCommand n) s)).trace = s.trace ++ ev := by
  refine executeCommand_keeps (P := fun t => ∃ ev, t.trace = s.trace ++ ev) ?_ n ⟨[], by simp⟩
  rintro t t' ⟨ev, hev⟩ ht
  obtain ⟨ev', _, hev', _⟩ := step_trace ht
  exact ⟨ev ++ ev', by rw [hev', hev, List.append_assoc]⟩

/-! ## The program counter -/

/-- On a halted machine a call returns at once, whatever its bound. -/
theorem executeCommand_halted {s : State} {n : Nat} (hs : s.status = .runnable) (hp : memSize ≤ s.pc.toNat) :
    hostCall (.executeCommand n) s = .returned .nothing s := by
  rw [hostCall_executeCommand_runnable hs, hostExecuteCommand_halted hp]

/-- Settles O25: NextPC of an instruction in memory is at most 64 but for a jump outside, which halts at its target. -/
theorem pcStaysInRangeForTargetsInMemory : Obligations.PcStaysInRangeForTargetsInMemory := by
  refine ⟨fun s t hpc hj h => step_pc_le_memSize hpc hj h, fun s hs hp => executeCommand_halted hs hp.ge,
    fun s T w hs hd hT => ?_⟩
  exact ⟨_, step_jmp hs hd, rfl, executeCommand_halted hs hT⟩

/-- Settles O35: no state that one of the four operations can leave has another `pc`. -/
theorem hostAccessOperationsKeepPc : Obligations.HostAccessOperationsKeepPc := by
  refine fun s a v i => ⟨?_, ?_, ?_, ?_⟩
  · obtain h | ⟨_, h⟩ | ⟨_, h⟩ | ⟨f, h⟩ := setRegister_leaves a v s <;> simp [h]
  · obtain h | ⟨f, h⟩ := getRegister_leaves a s <;> simp [h]
  · obtain h | ⟨m, h⟩ | ⟨f, h⟩ := loadCommand_leaves a i s <;> simp [h]
  · obtain h | ⟨f, h⟩ := fetchCommandAt_leaves a s <;> simp [h]

/-! ## The registers -/

theorem hostCall_keeps_r1 {s : State} {op : HostOp} (hnew : op ≠ .new) (hset : ∀ v, op ≠ .setRegister 1 v) :
    (stateAfter s (hostCall op s)).r1 = s.r1 := by
  cases op with
  | new => exact absurd rfl hnew
  | setRegister i v =>
    obtain h | ⟨_, h⟩ | ⟨rfl, _⟩ | ⟨f, h⟩ := setRegister_leaves i v s
    · rw [h]
    · rw [h]
    · exact absurd rfl (hset v)
    · rw [h, raise_r1]
  | getRegister i => obtain h | ⟨f, h⟩ := getRegister_leaves i s <;> simp [h]
  | loadCommand a i => obtain h | ⟨m, h⟩ | ⟨f, h⟩ := loadCommand_leaves a i s <;> simp [h]
  | fetchCommandAt a => obtain h | ⟨f, h⟩ := fetchCommandAt_leaves a s <;> simp [h]
  | executeCommandAt a =>
    obtain h | ⟨f, h⟩ | ⟨i, e, he, h⟩ := executeCommandAt_leaves a s
    · rw [h]
    · rw [h, raise_r1]
    · rw [h, execute_keeps_r1 he]
  | executeCommand n => exact executeCommand_keeps_r1 n s

/-- Settles O31: an execution writes `R[0]` or no register, and of the states that an operation can leave only those of
`set_register(1, v)` and `new()` have another `R[1]`. -/
theorem onlyRegisterZeroIsWrittenByInstructions : Obligations.OnlyRegisterZeroIsWrittenByInstructions := by
  refine ⟨fun i s e he => ⟨execute_keeps_r1 he, ?_⟩, fun i s t h => exec_keeps_r1 h,
    fun s op hnew hset => hostCall_keeps_r1 hnew hset⟩
  have hk := execute_ok he
  cases i with
  | add x y => obtain ⟨v, _, rfl⟩ := hk; rfl
  | sub x y => obtain ⟨v, _, rfl⟩ := hk; rfl
  | nop => cases hk; rfl
  | jmp t => cases hk; rfl

/-! ## The trace -/

theorem hostCall_keeps_trace {s : State} {op : HostOp} (hnew : op ≠ .new) (hrun : ∀ n, op ≠ .executeCommand n) :
    (stateAfter s (hostCall op s)).trace = s.trace := by
  cases op with
  | new => exact absurd rfl hnew
  | setRegister i v => obtain h | ⟨_, h⟩ | ⟨_, h⟩ | ⟨f, h⟩ := setRegister_leaves i v s <;> simp [h]
  | getRegister i => obtain h | ⟨f, h⟩ := getRegister_leaves i s <;> simp [h]
  | loadCommand a i => obtain h | ⟨m, h⟩ | ⟨f, h⟩ := loadCommand_leaves a i s <;> simp [h]
  | fetchCommandAt a => obtain h | ⟨f, h⟩ := fetchCommandAt_leaves a s <;> simp [h]
  | executeCommandAt a =>
    obtain h | ⟨f, h⟩ | ⟨i, e, he, h⟩ := executeCommandAt_leaves a s
    · rw [h]
    · rw [h, raise_trace]
    · rw [h, execute_keeps_trace he]
  | executeCommand n => exact absurd rfl (hrun n)

/-- Settles O33: another trace is an update that no execution sees, a run appends because each step does, and the other
operations leave the trace. -/
theorem traceIsOnlyAppendedToAndNeverRead : Obligations.TraceIsOnlyAppendedToAndNeverRead :=
  ⟨fun _ _ h => step_trace h, fun s n => executeCommand_appends n s,
    fun _ _ hnew hrun => hostCall_keeps_trace hnew hrun, fun _ => rfl⟩

/-! ## The status -/

/-- A FAULTED machine refuses every operation but `new()` (R75). -/
theorem hostCall_of_faulted {s : State} {op : HostOp} {f : Fault} (hs : s.status = .faulted f) (hnew : op ≠ .new) :
    hostCall op s = .refused .machineFaulted := by
  cases op with
  | new => exact absurd rfl hnew
  | _ => exact ifRunnable_faulted hs _

theorem hostDrive_of_faulted {s : State} {ops : List HostOp} {f : Fault} (hs : s.status = .faulted f)
    (hnew : .new ∉ ops) : hostDrive ops s = .idle s := by
  induction ops with
  | nil => rfl
  | cons op ops ih =>
    rw [hostDrive, hostCall_of_faulted hs (List.ne_of_not_mem_cons hnew).symm]
    exact ih (List.not_mem_of_not_mem_cons hnew)

/-- Settles O45: a FAULTED machine does not step and refuses all but `new()`, and so does a sequence of refusals. -/
theorem faultedStatusIsLeftOnlyByNew : Obligations.FaultedStatusIsLeftOnlyByNew := by
  refine ⟨rfl, fun s f hs => ⟨fun t => ?_, fun op hnew => ?_, rfl⟩, fun s ops f hs hnew => hostDrive_of_faulted hs hnew⟩
  · simp [step_faulted hs]
  · rw [hostCall_of_faulted hs hnew]
    exact hs

end Sys2Proof.Proofs.HostFrame

/-!
PROOFS. What a read of memory gives and what a decode reads (20_memory.md R40, R44, R46; 30_encoding.md R59): a write is
read back, and a decode rests on the bytes in front of it alone.
-/

namespace Sys2Proof.Proofs.MemoryReads

open Sys2Proof Sys2Proof.Machine

/-! ## Reads (20_memory.md R40, R46) -/

/-- A read that completes is inside memory and gives the byte there. -/
theorem memRead_eq_ok_iff {m : Memory} {a : Nat} {v : Byte} :
    memRead m a = .ok v ↔ a < memSize ∧ memGet m a = v := by
  rw [memRead_eq]
  split_ifs with h
  · simp [Nat.not_lt.2 h]
  · simp [Nat.lt_of_not_le h]

/-- Two memories read the same at an address, out of bounds or not, when they hold the same byte there. -/
theorem memRead_congr {m m' : Memory} {a : Nat} (h : memGet m a = memGet m' a) : memRead m a = memRead m' a := by
  rw [memRead_eq, memRead_eq, h]

/-- Settles O7: a write that completes is inside memory, where `memGet_memSet` says what each address reads as after it;
after reset no address is listed. -/
theorem readGivesTheMostRecentWrite : Obligations.ReadGivesTheMostRecentWrite := by
  refine ⟨fun m m' a v hwf hwrite => ?_, fun a ha => memRead_eq_ok_iff.2 ⟨ha, rfl⟩⟩
  obtain ⟨_, he⟩ | ⟨ha, he⟩ := memWrite_cases (m := m) (a := a) (v := v)
  · rw [he] at hwrite; cases hwrite
  · obtain rfl : memSet m a v = m' := by simpa [he] using hwrite
    refine ⟨memRead_eq_ok_iff.2 ⟨ha, ?_⟩, fun b hb => memRead_congr ?_⟩
    · rw [memGet_memSet hwf, if_pos rfl]
    · rw [memGet_memSet hwf, if_neg hb]

/-! ## What a decode reads (20_memory.md R44, 30_encoding.md R59) -/

/-- The bytes read from an address on are the same in two memories that read the same there. -/
theorem codeBytes_congr {m m' : Memory} {a n : Nat} (h : ∀ k < n, memRead m (a + k) = memRead m' (a + k)) :
    codeBytes m a n = codeBytes m' a n := by
  induction n generalizing a with
  | zero => rfl
  | succ n ih =>
    have hfirst : memRead m a = memRead m' a := h 0 n.succ_pos
    have hrest : codeBytes m (a + 1) n = codeBytes m' (a + 1) n :=
      ih fun k hk => by simpa only [Nat.add_assoc, Nat.add_comm 1] using h (k + 1) (Nat.succ_lt_succ hk)
    rw [codeBytes, codeBytes, hfirst, hrest]

/-- Where an instruction decodes, its encoding stands in memory: the converse of `decodeAt_of_bytes`. -/
theorem encode_stands_of_decodeAt {m : Memory} {a w : Nat} {i : Instr} (h : decodeAt m a = .ok (i, w)) :
    ∀ k < w, (encode i)[k]? = some (memGet m (a + k)) := by
  rw [decodeAt_eq] at h
  split_ifs at h with _ hadd _ hsub _ hnop hjmp <;> cases h <;> intro k hk
  · interval_cases k <;> simp [encode, hadd]
  · interval_cases k <;> simp [encode, hsub]
  · interval_cases k; simp [encode, hnop]
  · interval_cases k <;> simp [encode, hjmp]

/-- Settles O5: the own bytes of an instruction that decodes are its encoding, and they decode to it in any memory; a
decode is a function of the three bytes the decoder can read. -/
theorem decodeDependsOnlyOnTheInstructionBytes : Obligations.DecodeDependsOnlyOnTheInstructionBytes := by
  refine ⟨fun m m' a w i hdec hsame => ?_, fun m m' a hsame => ?_⟩
  · obtain ⟨rfl, hfits⟩ := decodeAt_width hdec
    refine decodeAt_of_bytes hfits fun k hk => ?_
    have hread : memRead m (a + k) = .ok (memGet m (a + k)) := memRead_eq_ok_iff.2 ⟨by omega, rfl⟩
    have hbyte : memGet m' (a + k) = memGet m (a + k) := (memRead_eq_ok_iff.1 ((hsame k hk).trans hread)).2
    rw [hbyte]
    exact encode_stands_of_decodeAt hdec k hk
  · rw [decodeAt, decodeAt, codeBytes_congr hsame]

end Sys2Proof.Proofs.MemoryReads

/-!
PROOFS. The encoder and the decoder are inverse to each other (30_encoding.md R60, R62, R63): on lists of bytes, in
memory after a `load_command`, and on words of the opcode table (R54, R55).
-/

namespace Sys2Proof.Proofs.EncodeDecode

open Sys2Proof Sys2Proof.Machine

/-! ## Lists of bytes (30_encoding.md R58, R63) -/

/-- What the operand bytes of format RR are, where they are read. -/
theorem exists_of_decodeRR_ok {mk : Byte → Byte → Instr} {bs : List Byte} {i : Instr} {w : Nat}
    (h : decodeRR mk bs = .ok (i, w)) : ∃ x y rest, bs = x :: y :: rest ∧ i = mk x y := by
  match bs with
  | [] => cases h
  | [_] => cases h
  | x :: y :: rest => cases h; exact ⟨x, y, rest, rfl, rfl⟩

/-- What the operand byte of format J is, where it is read. -/
theorem exists_of_decodeJ_ok {mk : Byte → Instr} {bs : List Byte} {i : Instr} {w : Nat}
    (h : decodeJ mk bs = .ok (i, w)) : ∃ t rest, bs = t :: rest ∧ i = mk t := by
  match bs with
  | [] => cases h
  | t :: rest => cases h; exact ⟨t, rest, rfl, rfl⟩

/-- Bytes that decode begin with the encoding of what they decode to. -/
theorem exists_eq_encode_append_of_decode {bs : List Byte} {i : Instr} {w : Nat} (h : decode bs = .ok (i, w)) :
    ∃ rest, bs = encode i ++ rest := by
  cases bs with
  | nil => cases h
  | cons op bs =>
    simp only [decode] at h
    split_ifs at h with hadd hsub hnop hjmp
    · obtain ⟨x, y, rest, rfl, rfl⟩ := exists_of_decodeRR_ok h
      exact ⟨rest, by rw [hadd]; rfl⟩
    · obtain ⟨x, y, rest, rfl, rfl⟩ := exists_of_decodeRR_ok h
      exact ⟨rest, by rw [hsub]; rfl⟩
    · cases h
      exact ⟨bs, by rw [hnop]; rfl⟩
    · obtain ⟨t, rest, rfl, rfl⟩ := exists_of_decodeJ_ok h
      exact ⟨rest, by rw [hjmp]; rfl⟩

/-- An encoding decodes to its instruction, whatever bytes follow it. -/
theorem decode_encode_append (i : Instr) (rest : List Byte) : decode (encode i ++ rest) = .ok (i, instrWidth i) := by
  have roundTrip : Laws.RoundTrip.Statement i := by
    cases i with
    | add x y => exact Laws.RoundTrip.add x y
    | sub x y => exact Laws.RoundTrip.sub x y
    | nop => exact Laws.RoundTrip.nop
    | jmp t => exact Laws.RoundTrip.jmp t
  obtain ⟨_, hdecode⟩ := roundTrip
  exact hdecode rest

theorem decode_eq_ok_iff {bs : List Byte} {i : Instr} {w : Nat} :
    decode bs = .ok (i, w) ↔ w = (encode i).length ∧ ∃ rest, bs = encode i ++ rest := by
  constructor
  · exact fun h => ⟨(decode_width h).trans (encode_length i).symm, exists_eq_encode_append_of_decode h⟩
  · rintro ⟨rfl, rest, rfl⟩
    rw [decode_encode_append, encode_length]

/-- A legal sequence with no byte after it is the encoding: the encoder writes back the same bytes (R63). -/
theorem eq_encode_of_decode {bs : List Byte} {i : Instr} {w : Nat} (h : decode bs = .ok (i, w))
    (hlen : bs.length = w) : bs = encode i := by
  obtain ⟨rfl, rest, rfl⟩ := decode_eq_ok_iff.1 h
  have hrest : rest = [] := by simpa using hlen
  rw [hrest, List.append_nil]

/-- Settles O1: each opcode's branch of the decoder reads back the encoder's bytes, so two legal sequences of one
instruction are both its encoding. -/
theorem decodeSucceedsExactlyOnEncodings : Obligations.DecodeSucceedsExactlyOnEncodings :=
  ⟨fun _ _ _ => decode_eq_ok_iff,
    fun _ _ _ _ h h' hlen hlen' => (eq_encode_of_decode h hlen).trans (eq_encode_of_decode h' hlen').symm⟩

/-! ## Memory after a `load_command` (30_encoding.md R62) -/

/-- Only on a RUNNABLE machine does an operation other than `new()` return (45_sequencer.md R75). -/
theorem runnable_of_ifRunnable_returned {s t : State} {r : HostResult} {v : HostValue}
    (h : ifRunnable s r = .returned v t) : s.status = .runnable ∧ r = .returned v t := by
  cases hs : s.status with
  | runnable => exact ⟨rfl, by rwa [ifRunnable_runnable hs] at h⟩
  | faulted f => rw [ifRunnable_faulted hs] at h; cases h

/-- What a `load_command` that returns has done: the encoder's writes completed, and nothing else changed. -/
theorem loadCommand_returned {s t : State} {a : Nat} {i : Instr} {v : HostValue}
    (h : hostCall (.loadCommand a i) s = .returned v t) :
    s.status = .runnable ∧ ∃ m, storeBytes s.mem a (encode i) = .ok m ∧ t = { s with mem := m } := by
  obtain ⟨hs, hload⟩ := runnable_of_ifRunnable_returned h
  rw [hostLoadCommand] at hload
  cases hstore : storeBytes s.mem a (encode i) with
  | error f => rw [hstore] at hload; cases hload
  | ok m => rw [hstore] at hload; cases hload; exact ⟨hs, m, rfl, rfl⟩

/-- Where an encoding has been stored, its instruction decodes. -/
theorem decodeAt_of_storeBytes {m m' : Memory} {a : Nat} {i : Instr} (hwf : Memory.wf m = true)
    (h : storeBytes m a (encode i) = .ok m') : decodeAt m' a = .ok (i, instrWidth i) := by
  obtain ⟨_, hfits, hget⟩ := storeBytes_ok hwf h
  refine decodeAt_of_bytes (by simpa only [encode_length] using hfits (encode_ne_nil i)) fun k hk => ?_
  have hlt : k < (encode i).length := by rwa [encode_length]
  rw [hget, if_pos (Nat.le_add_right a k), Nat.add_sub_cancel_left, List.getElem?_eq_getElem hlt, Option.getD_some]

/-- The decoder as a query gives what decodes in memory and leaves the state (45_sequencer.md R80). -/
theorem fetchCommandAt_of_decodeAt {s : State} {a w : Nat} {i : Instr} (hs : s.status = .runnable)
    (h : decodeAt s.mem a = .ok (i, w)) : hostCall (.fetchCommandAt a) s = .returned (.command i w) s := by
  simp only [hostCall, ifRunnable_runnable hs, hostFetchCommandAt, h]

/-- Settles O2: a `load_command` that returns has stored the encoding, which is what the query decodes. -/
theorem loadedInstructionDecodesBack : Obligations.LoadedInstructionDecodesBack := by
  intro s t a i v hwf hload
  obtain ⟨hs, m, hstore, rfl⟩ := loadCommand_returned hload
  exact fetchCommandAt_of_decodeAt hs (decodeAt_of_storeBytes hwf hstore)

/-! ## The tables (30_encoding.md R54, R55, R60) -/

/-- Settles O3: each row of the table is the encoder's equation for its kind. -/
theorem encoderTableGivesOpcodeWidthAndBytes : Obligations.EncoderTableGivesOpcodeWidthAndBytes :=
  ⟨fun _ _ => ⟨rfl, rfl, rfl⟩, fun _ _ => ⟨rfl, rfl, rfl⟩, ⟨rfl, rfl, rfl⟩, fun _ => ⟨rfl, rfl, rfl⟩⟩

/-- A word of the opcode table is the instruction whose encoding its bytes begin with. -/
theorem decodeTableWord_of_encode {nbits word : Nat} {i : Instr} {rest : List Byte}
    (h : wordBytes nbits word = encode i ++ rest) : decodeTableWord nbits word = some i := by
  rw [decodeTableWord, h, decode_encode_append]

/-- The decoder refuses a first byte that is none of the four opcodes (R55). -/
theorem decode_illegal {op : Byte} (rest : List Byte) (h : op ∉ [opAdd, opSub, opNop, opJmp]) :
    decode (op :: rest) = .error (.illegal op) := by
  simp only [List.mem_cons, List.not_mem_nil, or_false, not_or] at h
  obtain ⟨hadd, hsub, hnop, hjmp⟩ := h
  rw [decode, if_neg hadd, if_neg hsub, if_neg hnop, if_neg hjmp]

theorem decodeTableWord_of_illegal {nbits word : Nat} {op : Byte} {rest : List Byte}
    (h : wordBytes nbits word = op :: rest) (hop : op ∉ [opAdd, opSub, opNop, opJmp]) :
    decodeTableWord nbits word = none := by
  rw [decodeTableWord, h, decode_illegal rest hop]

/-- Settles O4: the bytes of four of the words begin with an encoding, and the other two words begin with no opcode. -/
theorem writtenOutWordsDecode : Obligations.WrittenOutWordsDecode := by
  refine ⟨?_, ?_, ?_, ?_, ?_, ?_⟩
  · exact decodeTableWord_of_encode (rest := []) (by decide)
  · exact decodeTableWord_of_encode (rest := []) (by decide)
  · exact decodeTableWord_of_encode (rest := [0#8, 0#8]) (by decide)
  · exact decodeTableWord_of_encode (rest := [0#8]) (by decide)
  · exact decodeTableWord_of_illegal (op := 0x00#8) (rest := [0#8, 0#8]) (by decide) (by decide)
  · exact decodeTableWord_of_illegal (op := 0x05#8) (rest := [0#8, 0#8]) (by decide) (by decide)

end Sys2Proof.Proofs.EncodeDecode

/-!
PROOFS. Lines of assembly text (30_encoding.md R64): what a line is read as, from its words.
-/

namespace Sys2Proof.Proofs.AssemblyLines

open Sys2Proof Sys2Proof.Machine

/-- A line whose first word ends in no colon has no label: all its words are the statement. -/
theorem asmLine_of_asmWords {cs word : List Char} {words : List (List Char)} (h : asmWords [] cs = word :: words)
    (hlabel : word.getLast? ≠ some ':') : asmLine cs = asmStatement (word :: words) := by
  simp only [asmLine, h, if_neg hlabel]

/-! ## The forms, from the words of the statement -/

theorem asmStatement_add {x y : List Char} {a b : Byte} (hx : asmNumber x = some a) (hy : asmNumber y = some b) :
    asmStatement ["add".toList, x, [','], y] = some [.add a b] := by
  simp [asmStatement, asmPair, hx, hy]

theorem asmStatement_sub {x y : List Char} {a b : Byte} (hx : asmNumber x = some a) (hy : asmNumber y = some b) :
    asmStatement ["sub".toList, x, [','], y] = some [.sub a b] := by
  simp [asmStatement, asmPair, hx, hy]

theorem asmStatement_nop : asmStatement ["nop".toList] = some [.nop] := rfl

theorem asmStatement_jmp_num {cs : List Char} {b : Byte} (h : asmNumber cs = some b) :
    asmStatement ["jmp".toList, cs] = some [.jmp (.num b)] := by
  simp [asmStatement, asmTarget, h]

theorem asmStatement_byte {cs : List Char} {b : Byte} (h : asmNumber cs = some b) :
    asmStatement [".byte".toList, cs] = some [.byte b] := by
  simp [asmStatement, h]

theorem asmStatement_org {cs : List Char} {n : Byte} (h : asmNumber cs = some n) :
    asmStatement [".org".toList, cs] = some [.org n] := by
  simp [asmStatement, h]

/-- Settles O6: an item's bytes are its instruction's encoding or the data byte, and each line is cut into the words of
its form. -/
theorem assemblyFormsGiveTheirBytes : Obligations.AssemblyFormsGiveTheirBytes := by
  refine ⟨fun _ _ _ _ => ⟨rfl, rfl, rfl, rfl, rfl⟩, ?add, ?sub, ?nop, ?jmp, ?byte, ?org⟩
  case add =>
    have words : asmWords [] "add 0, 1".toList = ["add".toList, ['0'], [','], ['1']] := by decide
    exact (asmLine_of_asmWords words (by decide)).trans (asmStatement_add (by decide) (by decide))
  case sub =>
    have words : asmWords [] "sub 1, 0".toList = ["sub".toList, ['1'], [','], ['0']] := by decide
    exact (asmLine_of_asmWords words (by decide)).trans (asmStatement_sub (by decide) (by decide))
  case nop =>
    have words : asmWords [] "nop".toList = ["nop".toList] := by decide
    exact (asmLine_of_asmWords words (by decide)).trans asmStatement_nop
  case jmp =>
    have words : asmWords [] "jmp 0x3D".toList = ["jmp".toList, "0x3D".toList] := by decide
    exact (asmLine_of_asmWords words (by decide)).trans (asmStatement_jmp_num (by decide))
  case byte =>
    have words : asmWords [] ".byte 255".toList = [".byte".toList, "255".toList] := by decide
    exact (asmLine_of_asmWords words (by decide)).trans (asmStatement_byte (by decide))
  case org =>
    have words : asmWords [] ".org 61".toList = [".org".toList, "61".toList] := by decide
    exact (asmLine_of_asmWords words (by decide)).trans (asmStatement_org (by decide))

end Sys2Proof.Proofs.AssemblyLines

/-!
PROOFS. The ALU, ADD and SUB (40_arithmetic.md R65 to R69). The two instructions differ in nothing but the function the
ALU computes, so what they do is said once, for `AluInstr`.
-/

namespace Sys2Proof.Proofs.Arithmetic

open Sys2Proof Sys2Proof.Machine Sys2Proof.Proofs.ExecutionFrame Sys2Proof.Proofs.EncodeDecode

/-! ## The ALU (40_arithmetic.md R65, R66) -/

theorem aluAdd_comm (a b : Byte) : aluAdd a b = aluAdd b a := by
  rw [aluAdd_eq, aluAdd_eq, BitVec.add_comm]

theorem aluSub_self (a : Byte) : aluSub a a = 0 := by
  rw [aluSub_eq]
  exact BitVec.sub_self a

theorem aluAdd_self_toNat (a : Byte) : (aluAdd a a).toNat = 2 * a.toNat % 256 := by
  rw [aluAdd_toNat, Nat.two_mul]

theorem aluAdd_toInt (a b : Byte) : (aluAdd a b).toInt = (a.toInt + b.toInt).bmod 256 := by
  rw [aluAdd_eq]
  exact BitVec.toInt_add a b

theorem aluSub_toInt (a b : Byte) : (aluSub a b).toInt = (a.toInt - b.toInt).bmod 256 := by
  rw [aluSub_eq]
  exact BitVec.toInt_sub

/-- Settles O10: modulo 256 the ALU adds and subtracts bit vectors, which do not tell signed from unsigned. -/
theorem aluDoesNotTellSignedFromUnsigned : Obligations.AluDoesNotTellSignedFromUnsigned :=
  fun a b => ⟨aluAdd_toInt a b, aluSub_toInt a b⟩

/-! ## Bad register operands (60_exceptions.md R93, R99) -/

theorem regRead_bad {s : State} {k : Nat} (h : numRegs ≤ k) : regRead s k = .error (.indexOutOfRange .reg k) := by
  obtain ⟨rfl, _⟩ | ⟨rfl, _⟩ | ⟨_, he⟩ := regRead_cases s k
  · exact absurd h (by decide)
  · exact absurd h (by decide)
  · exact he

/-- A bad first operand is reported, whatever the second one is. -/
theorem regOperands_bad_x {s : State} {x y : Byte} (hx : numRegs ≤ x.toNat) :
    regOperands s x y = .error (.indexOutOfRange .reg x.toNat) := by
  simp only [regOperands, regOperand, regRead_bad hx]

theorem regOperands_bad_y {s : State} {x y : Byte} (hx : x.toNat < numRegs) (hy : numRegs ≤ y.toNat) :
    regOperands s x y = .error (.indexOutOfRange .reg y.toNat) := by
  simp only [regOperands, regOperand, regRead_valid hx, regRead_bad hy]

/-! ## ADD and SUB alone (45_sequencer.md R81) -/

/-- `i` is ADD or SUB with the register operands `x` and `y`, and `alu` is what the ALU computes for it. -/
inductive AluInstr : Instr → (Byte → Byte → Byte) → Byte → Byte → Prop
  | add (x y : Byte) : AluInstr (.add x y) aluAdd x y
  | sub (x y : Byte) : AluInstr (.sub x y) aluSub x y

/-- The register that a valid index names (10_state.md R19). -/
def regValue (s : State) (x : Byte) : Byte := if x = 0 then s.r0 else s.r1

/-- What ADD or SUB computes from valid register operands. -/
def aluResult (alu : Byte → Byte → Byte) (s : State) (x y : Byte) : Byte := alu (regValue s x) (regValue s y)

section
variable {i : Instr} {alu : Byte → Byte → Byte} {x y : Byte} {s : State}

theorem AluInstr.instrWidth_eq (h : AluInstr i alu x y) : instrWidth i = 3 := by
  cases h <;> rfl

/-- ADD and SUB go on from their operands to the write of `R[0]`. -/
theorem AluInstr.execute_of_operands (h : AluInstr i alu x y) {a b : Byte} (hv : regOperands s x y = .ok (a, b)) :
    execute i s = .ok (writeBack s (alu a b)) := by
  cases h with
  | add => simp only [execute, bodyAdd, hv]
  | sub => simp only [execute, bodySub, hv]

/-- ADD and SUB fault with the fault of their operands. -/
theorem AluInstr.execute_of_operands_error (h : AluInstr i alu x y) {f : Fault}
    (hf : regOperands s x y = .error f) : execute i s = .error f := by
  cases h with
  | add => simp only [execute, bodyAdd, hf]
  | sub => simp only [execute, bodySub, hf]

theorem AluInstr.execute_valid (h : AluInstr i alu x y) (hx : x.toNat < numRegs) (hy : y.toNat < numRegs) :
    execute i s = .ok (writeBack s (aluResult alu s x y)) :=
  h.execute_of_operands (regOperands_valid hx hy)

/-- A bad first index faults, before the second one is read. -/
theorem AluInstr.execute_bad_x (h : AluInstr i alu x y) (hx : numRegs ≤ x.toNat) :
    execute i s = .error (.indexOutOfRange .reg x.toNat) :=
  h.execute_of_operands_error (regOperands_bad_x hx)

/-- A bad second index faults where the first one is valid. -/
theorem AluInstr.execute_bad_y (h : AluInstr i alu x y) (hx : x.toNat < numRegs) (hy : numRegs ≤ y.toNat) :
    execute i s = .error (.indexOutOfRange .reg y.toNat) :=
  h.execute_of_operands_error (regOperands_bad_y hx hy)

/-- The sum does not depend on the order of the operands (40_arithmetic.md R67). -/
theorem execute_add_comm (hx : x.toNat < numRegs) (hy : y.toNat < numRegs) :
    execute (.add y x) s = execute (.add x y) s := by
  rw [(AluInstr.add y x).execute_valid hy hx, (AluInstr.add x y).execute_valid hx hy, aluResult, aluResult, aluAdd_comm]

/-! ## ADD and SUB in the run loop (45_sequencer.md R83, R84) -/

/-- After ADD or SUB `pc` is 3 further. -/
theorem AluInstr.nextPc_eq (h : AluInstr i alu x y) (a : Byte) : nextPc a i = BitVec.ofNat 8 (a.toNat + 3) := by
  rw [BitVec.ofNat_add, BitVec.ofNat_toNat, BitVec.setWidth_eq]
  cases h <;> rfl

theorem AluInstr.exec_valid (h : AluInstr i alu x y) (hx : x.toNat < numRegs) (hy : y.toNat < numRegs) :
    exec i s = .next { s with
      r0 := aluResult alu s x y
      trace := s.trace ++ [aluResult alu s x y]
      pc := BitVec.ofNat 8 (s.pc.toNat + 3) } := by
  rw [exec_of_execute_ok (h.execute_valid hx hy), h.nextPc_eq]
  rfl

/-- ADD and SUB inside memory complete in the run loop, and their frame. -/
theorem AluInstr.exec_completes (h : AluInstr i alu x y) (hs : s.status = .runnable) (hx : x.toNat < numRegs)
    (hy : y.toNat < numRegs) (hpc : s.pc.toNat + 3 ≤ memSize) :
    ∃ t, exec i s = .next t ∧ t.r0 = aluResult alu s x y ∧ t.trace = s.trace ++ [t.r0] ∧
      t.pc.toNat = s.pc.toNat + 3 ∧ t.r1 = s.r1 ∧ t.status = .runnable ∧ t.freeIndex = s.freeIndex ∧
      ∀ a, memRead t.mem a = memRead s.mem a := by
  have noWrap : (BitVec.ofNat 8 (s.pc.toNat + 3)).toNat = s.pc.toNat + 3 :=
    Nat.mod_eq_of_lt (by simp only [memSize] at hpc; omega)
  exact ⟨_, h.exec_valid hx hy, rfl, rfl, noWrap, rfl, hs, rfl, fun _ => rfl⟩

/-! ## One instruction by the host: `load_command`, then `execute_command_at` (45_sequencer.md R79, R81) -/

theorem executeCommandAt_of_execute_ok {a w : Nat} {e : Executed} (hs : s.status = .runnable)
    (hd : decodeAt s.mem a = .ok (i, w)) (he : execute i s = .ok e) :
    hostCall (.executeCommandAt a) s = .returned (.byte e.result) e.state := by
  simp only [hostCall, ifRunnable_runnable hs, hostExecuteCommandAt, hd, he]

theorem executeCommandAt_of_execute_error {a w : Nat} {f : Fault} (hs : s.status = .runnable)
    (hd : decodeAt s.mem a = .ok (i, w)) (hf : execute i s = .error f) :
    hostCall (.executeCommandAt a) s = .faulted f (raise f s) := by
  simp only [hostCall, ifRunnable_runnable hs, hostExecuteCommandAt, hd, hf, hostFault]

/-- A `load_command` that fits completes, writes memory alone, and what it loaded decodes. -/
theorem loadCommand_of_fits {a : Nat} (i : Instr) (hs : s.status = .runnable) (hwf : Memory.wf s.mem = true)
    (ha : a + instrWidth i ≤ memSize) :
    ∃ m, hostCall (.loadCommand a i) s = .returned .nothing { s with mem := m } ∧
      decodeAt m a = .ok (i, instrWidth i) := by
  obtain ⟨m, hm⟩ := storeBytes_succeeds (m := s.mem) (ha.trans_eq' (by rw [encode_length]))
  refine ⟨m, ?_, decodeAt_of_storeBytes hwf hm⟩
  simp only [hostCall, ifRunnable_runnable hs, hostLoadCommand, hm]

/-- ADD or SUB loaded and executed sets `R[0]` to its result and returns it: the load changes no register. -/
theorem AluInstr.load_then_execute (h : AluInstr i alu x y) {a : Nat} (hs : s.status = .runnable)
    (hwf : Memory.wf s.mem = true) (ha : a + 3 ≤ memSize) (hx : x.toNat < numRegs) (hy : y.toNat < numRegs) :
    ∃ s1 s2, hostCall (.loadCommand a i) s = .returned .nothing s1 ∧
      hostCall (.executeCommandAt a) s1 = .returned (.byte (aluResult alu s x y)) s2 ∧
      s2.r0 = aluResult alu s x y := by
  obtain ⟨m, hload, hdec⟩ := loadCommand_of_fits i hs hwf (h.instrWidth_eq ▸ ha)
  have hexec := executeCommandAt_of_execute_ok (s := { s with mem := m }) hs hdec (h.execute_valid hx hy)
  exact ⟨_, _, hload, hexec, rfl⟩

end

/-! ## The rules of ADD and SUB -/

/-- Settles O11: valid operands are added and written back, a bad one faults before the write, and the host's operation
ends in that fault. -/
theorem addFollowsItsRule : Obligations.AddFollowsItsRule := by
  intro x y s
  have h := AluInstr.add x y
  refine ⟨rfl, rfl, fun hx hy => ?valid, fun hx => h.execute_bad_x hx, fun hx hy => h.execute_bad_y hx hy,
    fun a w f hs hd hf => executeCommandAt_of_execute_error hs hd hf⟩
  case valid =>
    exact ⟨aluResult aluAdd s x y, aluAdd_toNat _ _, h.execute_valid hx hy, execute_add_comm hx hy,
      fun _ => h.exec_valid hx hy⟩

/-- Settles O12: as for ADD, with the difference in the operands' order; of one register with itself it is 0. -/
theorem subFollowsItsRule : Obligations.SubFollowsItsRule := by
  intro x y s
  have h := AluInstr.sub x y
  refine ⟨rfl, rfl, fun hx hy => ?valid, fun hx => h.execute_bad_x hx, fun hx hy => h.execute_bad_y hx hy,
    fun a w f hs hd hf => executeCommandAt_of_execute_error hs hd hf⟩
  case valid =>
    refine ⟨aluResult aluSub s x y, aluSub_toNat _ _, ?same, h.execute_valid hx hy, fun _ => h.exec_valid hx hy⟩
    case same =>
      rintro rfl
      exact aluSub_self _

/-- Settles O13: both complete by `AluInstr.exec_completes`, each with its own ALU function. -/
theorem arithmeticCompletesInTheRunLoop : Obligations.ArithmeticCompletesInTheRunLoop := by
  intro x y s hs hx hy hpc
  constructor
  · obtain ⟨t, ht, hr0, hframe⟩ := (AluInstr.add x y).exec_completes hs hx hy hpc
    exact ⟨t, ht, hr0 ▸ aluAdd_toNat _ _, hframe⟩
  · obtain ⟨t, ht, hr0, hframe⟩ := (AluInstr.sub x y).exec_completes hs hx hy hpc
    exact ⟨t, ht, hr0 ▸ aluSub_toNat _ _, hframe⟩

/-- Settles O15: what is loaded decodes, and it executes with the registers as they were before the load. -/
theorem loadedArithmeticSetsRegisterZeroAndReturnsIt :
    Obligations.LoadedArithmeticSetsRegisterZeroAndReturnsIt := by
  rintro s a x y _ _ hs hwf ha hx hy rfl rfl
  constructor
  · obtain ⟨s1, s2, hload, hexec, hr0⟩ := (AluInstr.add x y).load_then_execute hs hwf ha hx hy
    refine ⟨s1, s2, _, hload, hexec, hr0, aluAdd_toNat _ _, ?_⟩
    rintro rfl
    exact aluAdd_self_toNat _
  · obtain ⟨s1, s2, hload, hexec, hr0⟩ := (AluInstr.sub x y).load_then_execute hs hwf ha hx hy
    refine ⟨s1, s2, _, hload, hexec, hr0, aluSub_toNat _ _, ?_⟩
    rintro rfl
    exact aluSub_self _

end Sys2Proof.Proofs.Arithmetic

/-!
PROOFS. NOP and JMP (41_control.md R70 to R72): where they decode, what one iteration of the run loop does with them,
and how a run goes on from there: it halts outside memory, goes on at the target, or jumps to itself for ever.
-/

namespace Sys2Proof.Proofs.Control

open Sys2Proof Sys2Proof.Machine Sys2Proof.Proofs.HostSequences Sys2Proof.Proofs.ExecutionFrame
open Sys2Proof.Proofs.HostFrame Sys2Proof.Proofs.MemoryReads Sys2Proof.Proofs.EncodeDecode Sys2Proof.Proofs.Arithmetic

/-! ## Decoding (30_encoding.md R58, R60) -/

/-- Where the bytes of an encoding are read, its instruction decodes. -/
theorem decodeAt_of_memRead {i : Instr} {m : Memory} {a : Nat}
    (h : ∀ k (hk : k < (encode i).length), memRead m (a + k) = .ok (encode i)[k]) :
    decodeAt m a = .ok (i, instrWidth i) := by
  have hpos := instrWidth_pos i
  have hlen := encode_length i
  obtain ⟨hlast, _⟩ := memRead_eq_ok_iff.1 (h (instrWidth i - 1) (by omega))
  refine decodeAt_of_bytes (by omega) fun k hk => ?_
  obtain ⟨_, hbyte⟩ := memRead_eq_ok_iff.1 (h k (by omega))
  rw [hbyte, List.getElem?_eq_getElem]

theorem decodeAt_nop {m : Memory} {a : Nat} (h : memRead m a = .ok opNop) : decodeAt m a = .ok (.nop, 1) := by
  refine decodeAt_of_memRead (i := .nop) fun k hk => ?_
  match k, hk with
  | 0, _ => exact h

theorem decodeAt_jmp {m : Memory} {a : Nat} {t : Byte} (hop : memRead m a = .ok opJmp)
    (ht : memRead m (a + 1) = .ok t) : decodeAt m a = .ok (.jmp t, 2) := by
  refine decodeAt_of_memRead (i := .jmp t) fun k hk => ?_
  match k, hk with
  | 0, _ => exact hop
  | 1, _ => exact ht

/-- The target byte of a JMP at address 63 would lie outside memory (60_exceptions.md R92). -/
theorem decodeAt_jmp_at_memory_end {m : Memory} (h : memRead m 63 = .ok opJmp) :
    decodeAt m 63 = .error (.indexOutOfRange .mem 64) := by
  obtain ⟨_, hop⟩ := memRead_eq_ok_iff.1 h
  rw [decodeAt_eq, hop]
  rfl

/-- Nothing decodes outside memory. -/
theorem lt_memSize_of_decodeAt {m : Memory} {a w : Nat} {i : Instr} (h : decodeAt m a = .ok (i, w)) : a < memSize := by
  obtain ⟨rfl, hfits⟩ := decodeAt_width h
  exact (Nat.lt_add_of_pos_right (instrWidth_pos i)).trans_le hfits

/-! ## One iteration of the run loop (45_sequencer.md R84) -/

/-- NOP in the run loop (R70): an event 0, and `pc` 1 further. -/
theorem exec_nop (s : State) :
    exec .nop s = .next { s with trace := s.trace ++ [0], pc := BitVec.ofNat 8 (s.pc.toNat + 1) } := by
  have hnext : nextPc s.pc .nop = BitVec.ofNat 8 (s.pc.toNat + 1) := by
    rw [BitVec.ofNat_add, BitVec.ofNat_toNat, BitVec.setWidth_eq]
    rfl
  rw [← hnext]
  rfl

/-- JMP in the run loop (R71): an event 0, and `pc` at the target, in memory or not. -/
theorem exec_jmp (t : Byte) (s : State) : exec (.jmp t) s = .next { s with trace := s.trace ++ [0], pc := t } := rfl

/-- What decodes at `pc` is what a step executes; an instruction that decodes stands inside memory. -/
theorem step_of_decodeAt {s : State} {i : Instr} {w : Nat} (hs : s.status = .runnable)
    (hd : decodeAt s.mem s.pc.toNat = .ok (i, w)) : step s = exec i s :=
  step_eq_exec hs (lt_memSize_of_decodeAt hd) hd

/-! ## How a run goes on (45_sequencer.md R87, R88) -/

/-- A run whose first instruction leaves `pc` outside memory halts in the state that instruction leaves. -/
theorem executeCommand_halts_after {s t : State} {i : Instr} {w n : Nat} (hs : s.status = .runnable)
    (hd : decodeAt s.mem s.pc.toNat = .ok (i, w)) (hexec : exec i s = .next t) (ht : t.status = .runnable)
    (hout : memSize ≤ t.pc.toNat) : hostCall (.executeCommand (n + 1)) s = .returned .nothing t := by
  have hstep : step s = .next t := (step_of_decodeAt hs hd).trans hexec
  rw [hostCall_executeCommand_runnable hs, hostExecuteCommand_runnable (lt_memSize_of_decodeAt hd) hstep ht,
    hostExecuteCommand_halted hout]

/-- A run that cannot decode its first instruction ends in that fault. -/
theorem executeCommand_decodeFault {s : State} {f : Fault} {n : Nat} (hs : s.status = .runnable)
    (hp : s.pc.toNat < memSize) (hd : decodeAt s.mem s.pc.toNat = .error f) :
    hostCall (.executeCommand (n + 1)) s = .faulted f (raise f s) := by
  rw [hostCall_executeCommand_runnable hs, hostExecuteCommand_faulted hp (step_decodeFault hs hp hd) rfl]

/-- A jump to itself is at its own address after every iteration, with one more event 0. -/
theorem hostExecuteCommand_self_jump {s : State} {w : Nat} (n : Nat) (hs : s.status = .runnable)
    (hd : decodeAt s.mem s.pc.toNat = .ok (.jmp s.pc, w)) :
    hostExecuteCommand n s = .stillRunning { s with trace := s.trace ++ List.replicate n 0 } := by
  have hp : s.pc.toNat < memSize := lt_memSize_of_decodeAt hd
  induction n generalizing s with
  | zero => rw [hostExecuteCommand_zero hp, List.replicate_zero, List.append_nil]
  | succ n ih =>
    have hstep : step s = .next { s with trace := s.trace ++ [0] } := step_jmp hs hd
    rw [hostExecuteCommand_runnable hp hstep hs, ih (s := { s with trace := s.trace ++ [0] }) hs hd hp,
      List.append_assoc, List.singleton_append, List.replicate_succ]

/-! ## The rules of NOP and JMP -/

/-- Settles O16: NOP is its opcode alone, so it decodes wherever that byte is read; from 63 it advances out of
memory. -/
theorem nopFollowsItsRule : Obligations.NopFollowsItsRule := by
  refine ⟨rfl, rfl, fun _ => rfl, fun s _ => exec_nop s, fun _ _ h => decodeAt_nop h, fun s hs hpc hop n => ?at63⟩
  case at63 =>
    have hd : decodeAt s.mem s.pc.toNat = .ok (.nop, 1) := by
      rw [hpc]
      exact decodeAt_nop hop
    have hexec : exec .nop s = .next { s with trace := s.trace ++ [0], pc := 64#8 } := by
      rw [exec_nop, hpc]
      rfl
    exact executeCommand_halts_after hs hd hexec hs (le_refl memSize)

/-- Settles O18: a JMP decodes where its two bytes are read; its target is where the run halts, or goes on for ever. -/
theorem jmpFollowsItsRule : Obligations.JmpFollowsItsRule := by
  refine fun t => ⟨rfl, rfl, fun _ => rfl, exec_jmp t, fun _ h => decodeAt_jmp_at_memory_end h,
    fun s a hs hop htarget => ?loaded⟩
  case loaded =>
    have hd : decodeAt s.mem a = .ok (.jmp t, 2) := decodeAt_jmp hop htarget
    refine ⟨executeCommandAt_of_execute_ok hs hd rfl, ?outside, ?itself⟩
    case outside =>
      rintro rfl hout n
      exact executeCommand_halts_after hs hd (exec_jmp t s) hs hout
    case itself =>
      rintro rfl rfl n
      exact ⟨_, hostExecuteCommand_self_jump n hs hd⟩

/-- Settles O20: the step of the loaded JMP leaves `pc` at `T`, from where the next step decodes, or the run halts. -/
theorem jumpDecodesNextAtItsTarget : Obligations.JumpDecodesNextAtItsTarget := by
  intro s s1 T v hwf hload
  obtain ⟨hs, m, hstore, rfl⟩ := loadCommand_returned hload
  have hd : decodeAt m s.pc.toNat = .ok (.jmp T, 2) := decodeAt_of_storeBytes hwf hstore
  refine ⟨_, step_jmp hs hd, rfl, fun i w hnext => ?decodes, fun hT n f hfault => ?faults, fun hT n => ?halts⟩
  case decodes => exact step_of_decodeAt hs hnext
  case faults => exact executeCommand_decodeFault hs hT hfault
  case halts => exact executeCommand_halted hs hT

/-- Settles O17: inside memory the advance by 1 does not wrap. -/
theorem nopCompletesInTheRunLoop : Obligations.NopCompletesInTheRunLoop := by
  intro s hs hpc
  have noWrap : (BitVec.ofNat 8 (s.pc.toNat + 1)).toNat = s.pc.toNat + 1 :=
    Nat.mod_eq_of_lt (hpc.trans_lt (by decide))
  exact ⟨_, exec_nop s, noWrap, rfl, rfl, rfl, hs, rfl, fun _ => rfl⟩

/-- Settles O19: the next state of a JMP differs from the state before it in `pc` and the trace alone. -/
theorem jmpCompletesInTheRunLoop : Obligations.JmpCompletesInTheRunLoop :=
  fun s t hs => ⟨_, exec_jmp t s, rfl, rfl, rfl, rfl, hs, rfl, fun _ => rfl⟩

end Sys2Proof.Proofs.Control

/-!
PROOFS. The run loop (45_sequencer.md R82 to R89): what one iteration does with the instruction it decodes, and how a run
goes on from its first iteration to one of its three ends.
-/

namespace Sys2Proof.Proofs.RunLoop

open Sys2Proof Sys2Proof.Machine Sys2Proof.Proofs.HostSequences Sys2Proof.Proofs.ExecutionFrame
open Sys2Proof.Proofs.HostFrame Sys2Proof.Proofs.Arithmetic Sys2Proof.Proofs.Control

/-! ## Executions (45_sequencer.md R81) -/

/-- ADD and SUB complete only with valid operands, and then with the result of those. -/
theorem eq_writeBack_of_execute_ok {i : Instr} {alu : Byte → Byte → Byte} {x y : Byte} {s : State} {e : Executed}
    (h : AluInstr i alu x y) (he : execute i s = .ok e) : e = writeBack s (aluResult alu s x y) := by
  by_cases hx : x.toNat < numRegs
  · by_cases hy : y.toNat < numRegs
    · exact Except.ok.inj (he.symm.trans (h.execute_valid hx hy))
    · rw [h.execute_bad_y hx (Nat.le_of_not_lt hy)] at he; cases he
  · rw [h.execute_bad_x (Nat.le_of_not_lt hx)] at he; cases he

/-- An instruction with valid register operands completes (60_exceptions.md R93). -/
theorem execute_completes_of_wellFormed {i : Instr} (s : State) (h : i.wellFormed = true) :
    ∃ e, execute i s = .ok e := by
  have valid : ∀ x y, (regIndexOk x && regIndexOk y) = true → x.toNat < numRegs ∧ y.toNat < numRegs := by
    simp [regIndexOk]
  cases i with
  | add x y =>
    obtain ⟨hx, hy⟩ := valid x y h
    exact ⟨_, (AluInstr.add x y).execute_valid hx hy⟩
  | sub x y =>
    obtain ⟨hx, hy⟩ := valid x y h
    exact ⟨_, (AluInstr.sub x y).execute_valid hx hy⟩
  | nop => exact ⟨_, rfl⟩
  | jmp t => exact ⟨_, rfl⟩

/-- Every instruction but JMP is followed by the address after its last byte (R83). -/
theorem nextPc_toNat_of_ne_jmp {a : Byte} {i : Instr} (hj : ∀ T, i ≠ .jmp T) (hw : a.toNat + instrWidth i ≤ memSize) :
    (nextPc a i).toNat = a.toNat + instrWidth i := by
  have hnext := nextPc_toNat a i hw
  cases i with
  | add x y => exact hnext
  | sub x y => exact hnext
  | nop => exact hnext
  | jmp T => exact absurd rfl (hj T)

/-! ## One iteration (45_sequencer.md R84) -/

/-- The state that an iteration which completes leaves: the result byte emitted, `pc` at NextPC, and nothing else
changed but what the execution changed. -/
def afterIteration (i : Instr) (s : State) (e : Executed) : State := setPc (emit e.state e.result) (nextPc s.pc i)

theorem afterIteration_status {i : Instr} {s : State} {e : Executed} (he : execute i s = .ok e) :
    (afterIteration i s e).status = s.status := by
  obtain ⟨_, _, hstatus, _⟩ := execute_frame he
  exact hstatus

theorem afterIteration_trace {i : Instr} {s : State} {e : Executed} (he : execute i s = .ok e) :
    (afterIteration i s e).trace = s.trace ++ [e.result] := by
  simp [afterIteration, execute_keeps_trace he]

/-- All that an iteration can do on a machine that is not halted: enter a fault, or complete the instruction decoded at
`pc`. -/
theorem iteration_cases {s t : State} (hp : s.pc.toNat < memSize) (h : step s = .next t) :
    (∃ f, t = raise f s) ∨
      (s.status = .runnable ∧ ∃ i w e, decodeAt s.mem s.pc.toNat = .ok (i, w) ∧ execute i s = .ok e ∧
        t = afterIteration i s e) := by
  obtain ⟨hs, ⟨hout, _⟩ | ⟨_, ⟨f, _, ht⟩ | ⟨i, w, hd, ⟨f, _, ht⟩ | ⟨e, he, ht⟩⟩⟩⟩ := step_next_cases h
  · exact absurd hp (Nat.not_lt.2 hout)
  · exact .inl ⟨f, ht⟩
  · exact .inl ⟨f, ht⟩
  · exact .inr ⟨hs, i, w, e, hd, he, ht⟩

/-- Settles O21: an instruction that decodes stands inside memory, so the step reaches it, and `exec` retires its
execution. -/
theorem stepRunsTheDecodedInstruction : Obligations.StepRunsTheDecodedInstruction := by
  intro s i w hs hd
  obtain ⟨hw, _⟩ := decodeAt_width hd
  exact ⟨step_of_decodeAt hs hd, hw, fun _ he => exec_of_execute_ok he, fun _ hf => exec_of_execute_error hf⟩

/-- Settles O23: an iteration that completes moves `pc` to NextPC, which does not wrap inside memory. -/
theorem runLoopAdvancesPcWithoutWrapping : Obligations.RunLoopAdvancesPcWithoutWrapping := by
  intro s t i w hd hstep hrun
  obtain ⟨rfl, hfits⟩ := decodeAt_width hd
  refine ⟨hfits, ?_⟩
  obtain ⟨f, rfl⟩ | ⟨_, i', w', e, hd', _, rfl⟩ := iteration_cases (lt_memSize_of_decodeAt hd) hstep
  · cases hrun
  · obtain ⟨rfl, _⟩ : i = i' ∧ instrWidth i = w' := by simpa using hd.symm.trans hd'
    exact nextPc_toNat s.pc i hfits

/-- Settles O24: the event of an iteration that completes is the execution's result byte, and entering a fault keeps the
trace. -/
theorem eachCompletedIterationEmitsOneResultByte : Obligations.EachCompletedIterationEmitsOneResultByte := by
  intro s t hp hstep
  obtain ⟨f, rfl⟩ | ⟨hs, i, w, e, hd, he, rfl⟩ := iteration_cases hp hstep
  · exact ⟨fun _ => rfl, fun hrun => by cases hrun⟩
  · refine ⟨fun hfault => absurd ((afterIteration_status he).trans hs) hfault,
      fun _ => ⟨i, w, e.result, hd, afterIteration_trace he, ?_⟩⟩
    cases i with
    | add x y => exact eq_writeBack_of_execute_ok (.add x y) he ▸ aluAdd_toNat _ _
    | sub x y => exact eq_writeBack_of_execute_ok (.sub x y) he ▸ aluSub_toNat _ _
    | nop => cases he; rfl
    | jmp T => cases he; rfl

/-! ## Runs (45_sequencer.md R87, R88) -/

/-- All the ways a run can begin: it is over at once; or it has not ended, and its first iteration leads to a RUNNABLE
state from which it goes on, or ends it in a fault. -/
theorem run_begins {s : State} (hs : s.status = .runnable) :
    (memSize ≤ s.pc.toNat ∧ ∀ n, hostExecuteCommand n s = .returned .nothing s) ∨
      (hostExecuteCommand 0 s = .stillRunning s ∧
        ((∃ t, t.status = .runnable ∧ ∀ n, hostExecuteCommand (n + 1) s = hostExecuteCommand n t) ∨
          ∃ f t, t.status = .faulted f ∧ ∀ n, hostExecuteCommand (n + 1) s = .faulted f t)) := by
  by_cases hp : memSize ≤ s.pc.toNat
  · exact .inl ⟨hp, fun n => hostExecuteCommand_halted hp⟩
  · have hin : s.pc.toNat < memSize := Nat.lt_of_not_le hp
    refine .inr ⟨hostExecuteCommand_zero hin, ?_⟩
    obtain ⟨t, hstep⟩ := step_of_runnable hs
    cases ht : t.status with
    | runnable => exact .inl ⟨t, ht, fun n => hostExecuteCommand_runnable hin hstep ht⟩
    | faulted f => exact .inr ⟨f, t, ht, fun n => hostExecuteCommand_faulted hin hstep ht⟩

/-- All the answers of a watched run: it has halted outside memory, it has faulted, or it is still running. -/
theorem run_answers (n : Nat) {s : State} (hs : s.status = .runnable) :
    (∃ t, hostExecuteCommand n s = .returned .nothing t ∧ memSize ≤ t.pc.toNat ∧ t.status = .runnable) ∨
      (∃ f t, hostExecuteCommand n s = .faulted f t ∧ t.status = .faulted f) ∨
      ∃ t, hostExecuteCommand n s = .stillRunning t := by
  induction n generalizing s with
  | zero =>
    obtain ⟨hp, hover⟩ | ⟨hzero, _⟩ := run_begins hs
    · exact .inl ⟨s, hover 0, hp, hs⟩
    · exact .inr (.inr ⟨s, hzero⟩)
  | succ n ih =>
    obtain ⟨hp, hover⟩ | ⟨_, ⟨t, ht, hgo⟩ | ⟨f, t, ht, hfault⟩⟩ := run_begins hs
    · exact .inl ⟨s, hover (n + 1), hp, hs⟩
    · rw [hgo n]
      exact ih ht
    · exact .inr (.inl ⟨f, t, hfault n, ht⟩)

/-- The answer of a run that has ended is its answer under every larger bound. -/
theorem run_answer_of_le {n m : Nat} {s : State} (hs : s.status = .runnable) (hnm : n ≤ m)
    (hend : ∀ t, hostExecuteCommand n s ≠ .stillRunning t) : hostExecuteCommand m s = hostExecuteCommand n s := by
  induction n generalizing s m with
  | zero =>
    obtain ⟨_, hover⟩ | ⟨hzero, _⟩ := run_begins hs
    · rw [hover m, hover 0]
    · exact absurd hzero (hend s)
  | succ n ih =>
    obtain ⟨m, rfl⟩ : ∃ k, m = k + 1 := ⟨m - 1, by omega⟩
    obtain ⟨_, hover⟩ | ⟨_, ⟨t, ht, hgo⟩ | ⟨f, t, _, hfault⟩⟩ := run_begins hs
    · rw [hover (m + 1), hover (n + 1)]
    · rw [hgo m, hgo n]
      exact ih ht (Nat.le_of_succ_le_succ hnm) fun u hu => hend u ((hgo n).trans hu)
    · rw [hfault m, hfault n]

/-- Settles O29: a FAULTED machine refuses under every bound, and a run that has ended answers alike under every larger
one. -/
theorem executeCommandEndDoesNotDependOnTheBound : Obligations.ExecuteCommandEndDoesNotDependOnTheBound := by
  intro s n m hnm hend
  cases hs : s.status with
  | runnable =>
    simp only [hostCall_executeCommand_runnable hs] at hend ⊢
    exact run_answer_of_le hs hnm hend
  | faulted f => rw [hostCall_of_faulted hs (by simp), hostCall_of_faulted hs (by simp)]

/-- A run does not halt under one bound and fault under another. -/
theorem not_halts_and_faults {s : State} (hs : s.status = .runnable) : ¬(Halts s ∧ Faults s) := by
  rintro ⟨⟨n, t, hhalt⟩, ⟨m, f, u, hfault⟩⟩
  obtain hnm | hmn := Nat.le_total n m
  · have hsame := run_answer_of_le hs hnm (by simp [hhalt])
    rw [hhalt, hfault] at hsame; cases hsame
  · have hsame := run_answer_of_le hs hmn (by simp [hfault])
    rw [hhalt, hfault] at hsame; cases hsame

theorem not_hangs_of_halts {s : State} (h : Halts s) : ¬Hangs s := by
  obtain ⟨n, t, hhalt⟩ := h
  intro hhang
  obtain ⟨u, hrun⟩ := hhang n
  rw [hhalt] at hrun; cases hrun

theorem not_hangs_of_faults {s : State} (h : Faults s) : ¬Hangs s := by
  obtain ⟨n, f, t, hfault⟩ := h
  intro hhang
  obtain ⟨u, hrun⟩ := hhang n
  rw [hfault] at hrun; cases hrun

/-- A run that neither halts nor faults under any bound is still running under each. -/
theorem halts_or_faults_or_hangs {s : State} (hs : s.status = .runnable) : Halts s ∨ Faults s ∨ Hangs s := by
  by_cases hhalt : Halts s
  · exact .inl hhalt
  · by_cases hfault : Faults s
    · exact .inr (.inl hfault)
    · refine .inr (.inr fun n => ?_)
      obtain ⟨t, h, _⟩ | ⟨f, t, h, _⟩ | hrun := run_answers n hs
      · exact absurd ⟨n, t, h⟩ hhalt
      · exact absurd ⟨n, f, t, h⟩ hfault
      · exact hrun

/-- Settles O26: each bound shows one of the three answers of `run_answers`, and no two bounds show different ends. -/
theorem runEndsInExactlyOneOfThreeWays : Obligations.RunEndsInExactlyOneOfThreeWays := by
  intro s hs
  refine ⟨halts_or_faults_or_hangs hs, not_halts_and_faults hs, fun ⟨hhalt, hhang⟩ => not_hangs_of_halts hhalt hhang,
    fun ⟨hfault, hhang⟩ => not_hangs_of_faults hfault hhang, fun n v t h => ?_, fun n f t h => ?_,
    fun hp n => executeCommand_halted hs hp⟩
  all_goals
    rw [hostCall_executeCommand_runnable hs] at h
    obtain ⟨u, hu, hend⟩ | ⟨g, u, hu, hend⟩ | ⟨u, hu⟩ := run_answers n hs <;> rw [hu] at h <;> cases h
    exact hend

/-- Settles O27: a well-formed instruction completes, and NextPC of the last one in memory is MEM_SIZE, where the run is
over. -/
theorem instructionEndingAtMemoryEndHaltsTheRun : Obligations.InstructionEndingAtMemoryEndHaltsTheRun := by
  intro s i w hs hd hj hwf hlast
  obtain ⟨rfl, hfits⟩ := decodeAt_width hd
  obtain ⟨e, he⟩ := execute_completes_of_wellFormed s hwf
  have hstatus : (afterIteration i s e).status = .runnable := (afterIteration_status he).trans hs
  have hpc : (afterIteration i s e).pc.toNat = memSize := (nextPc_toNat_of_ne_jmp hj hfits).trans hlast
  exact ⟨_, e.result, executeCommand_halts_after hs hd (exec_of_execute_ok he) hstatus hpc.ge, hpc, hstatus,
    afterIteration_trace he⟩

/-- Settles O28: `hostExecuteCommand_self_jump` under every bound. -/
theorem jumpToItselfNeverEnds : Obligations.JumpToItselfNeverEnds := by
  intro s hs hd
  refine ⟨fun n => ⟨_, hostExecuteCommand_self_jump n hs hd⟩, fun n => ?_⟩
  rw [hostCall_executeCommand_runnable hs]
  exact hostExecuteCommand_self_jump n hs hd

end Sys2Proof.Proofs.RunLoop

/-!
PROOFS. The answers of the host operations on a RUNNABLE machine (45_sequencer.md R74 to R81): what each can answer and
with which state, said once per operation; what the answers mean for the registers, memory, `pc` and the refusals.
-/

namespace Sys2Proof.Proofs.HostAnswers

open Sys2Proof Sys2Proof.Machine Sys2Proof.Proofs.HostSequences Sys2Proof.Proofs.ExecutionFrame
open Sys2Proof.Proofs.HostFrame Sys2Proof.Proofs.MemoryReads Sys2Proof.Proofs.EncodeDecode
open Sys2Proof.Proofs.Arithmetic Sys2Proof.Proofs.RunLoop

/-! ## All the answers of an operation -/

/-- All that `set_register` can answer (R77). -/
theorem setRegister_answers (i : Nat) (v : Byte) {s : State} (hs : s.status = .runnable) :
    (i = 0 ∧ hostCall (.setRegister i v) s = .returned .nothing { s with r0 := v }) ∨
      (i = 1 ∧ hostCall (.setRegister i v) s = .returned .nothing { s with r1 := v }) ∨
      (2 ≤ i ∧ hostCall (.setRegister i v) s =
        .faulted (.indexOutOfRange .reg i) (raise (.indexOutOfRange .reg i) s)) := by
  simp only [hostCall, ifRunnable_runnable hs, hostSetRegister]
  obtain ⟨hi, hw⟩ | ⟨hi, hw⟩ | ⟨hi, hw⟩ := regWrite_cases s i v <;> rw [hw]
  · exact .inl ⟨hi, rfl⟩
  · exact .inr (.inl ⟨hi, rfl⟩)
  · exact .inr (.inr ⟨hi, rfl⟩)

/-- All that `get_register` can answer (R78). -/
theorem getRegister_answers (i : Nat) {s : State} (hs : s.status = .runnable) :
    (i = 0 ∧ hostCall (.getRegister i) s = .returned (.byte s.r0) s) ∨
      (i = 1 ∧ hostCall (.getRegister i) s = .returned (.byte s.r1) s) ∨
      (2 ≤ i ∧ hostCall (.getRegister i) s =
        .faulted (.indexOutOfRange .reg i) (raise (.indexOutOfRange .reg i) s)) := by
  simp only [hostCall, ifRunnable_runnable hs, hostGetRegister]
  obtain ⟨hi, hr⟩ | ⟨hi, hr⟩ | ⟨hi, hr⟩ := regRead_cases s i <;> rw [hr]
  · exact .inl ⟨hi, rfl⟩
  · exact .inr (.inl ⟨hi, rfl⟩)
  · exact .inr (.inr ⟨hi, rfl⟩)

/-- A failed run of encoder writes names an address outside memory (60_exceptions.md R92). -/
theorem storeBytes_error {bs : List Byte} {m : Memory} {a : Nat} {f : Fault} (h : storeBytes m a bs = .error f) :
    ∃ k, memSize ≤ k ∧ f = .indexOutOfRange .mem k := by
  have hout : memSize < a + bs.length := by
    by_contra hin
    obtain ⟨m', hok⟩ := storeBytes_succeeds (m := m) (Nat.le_of_not_lt hin)
    rw [hok] at h; cases h
  have hne : bs ≠ [] := by
    rintro rfl
    cases h
  rw [storeBytes_faults hne hout] at h
  cases h
  exact ⟨_, Nat.le_max_right a memSize, rfl⟩

/-- All that `load_command` can answer (R79, 60_exceptions.md R98). -/
theorem loadCommand_answers (a : Nat) (i : Instr) {s : State} (hs : s.status = .runnable) :
    (∃ m, storeBytes s.mem a (encode i) = .ok m ∧
        hostCall (.loadCommand a i) s = .returned .nothing { s with mem := m }) ∨
      ∃ k, memSize ≤ k ∧ hostCall (.loadCommand a i) s =
        .faulted (.indexOutOfRange .mem k) (raise (.indexOutOfRange .mem k) (scramble a (instrWidth i) s)) := by
  simp only [hostCall, ifRunnable_runnable hs, hostLoadCommand]
  cases hstore : storeBytes s.mem a (encode i) with
  | ok m => exact .inl ⟨m, rfl, rfl⟩
  | error f =>
    obtain ⟨k, hk, rfl⟩ := storeBytes_error hstore
    exact .inr ⟨k, hk, rfl⟩

/-- All that `fetch_command_at` can answer (R80). -/
theorem fetchCommandAt_answers (a : Nat) {s : State} (hs : s.status = .runnable) :
    (∃ i w, decodeAt s.mem a = .ok (i, w) ∧ hostCall (.fetchCommandAt a) s = .returned (.command i w) s) ∨
      ∃ f, decodeAt s.mem a = .error f ∧ hostCall (.fetchCommandAt a) s = .faulted f (raise f s) := by
  cases hd : decodeAt s.mem a with
  | ok r => exact .inl ⟨r.1, r.2, rfl, fetchCommandAt_of_decodeAt hs hd⟩
  | error f => exact .inr ⟨f, rfl, by simp only [hostCall, ifRunnable_runnable hs, hostFetchCommandAt, hd, hostFault]⟩

/-- All that `execute_command_at` can answer (R81): the fault of the decode, that of the execution, or the result
byte. -/
theorem executeCommandAt_answers (a : Nat) {s : State} (hs : s.status = .runnable) :
    (∃ f, decodeAt s.mem a = .error f ∧ hostCall (.executeCommandAt a) s = .faulted f (raise f s)) ∨
      ∃ i w, decodeAt s.mem a = .ok (i, w) ∧
        ((∃ f, execute i s = .error f ∧ hostCall (.executeCommandAt a) s = .faulted f (raise f s)) ∨
          ∃ e, execute i s = .ok e ∧ hostCall (.executeCommandAt a) s = .returned (.byte e.result) e.state) := by
  cases hd : decodeAt s.mem a with
  | error f =>
    exact .inl ⟨f, rfl, by simp only [hostCall, ifRunnable_runnable hs, hostExecuteCommandAt, hd, hostFault]⟩
  | ok r =>
    obtain ⟨i, w⟩ := r
    refine .inr ⟨i, w, rfl, ?_⟩
    cases he : execute i s with
    | error f => exact .inl ⟨f, rfl, executeCommandAt_of_execute_error hs hd he⟩
    | ok e => exact .inr ⟨e, rfl, executeCommandAt_of_execute_ok hs hd he⟩

/-! ## Registers (45_sequencer.md R77, R78) -/

theorem getRegister_zero {s : State} (hs : s.status = .runnable) :
    hostCall (.getRegister 0) s = .returned (.byte s.r0) s :=
  ifRunnable_runnable hs _

theorem getRegister_one {s : State} (hs : s.status = .runnable) :
    hostCall (.getRegister 1) s = .returned (.byte s.r1) s :=
  ifRunnable_runnable hs _

/-- Settles O36: a valid write leaves a RUNNABLE machine with that one register changed, whose registers are then read; a
bad index faults both operations. -/
theorem setRegisterThenGetRegister : Obligations.SetRegisterThenGetRegister := by
  intro s i v hs
  obtain ⟨rfl, hset⟩ | ⟨rfl, hset⟩ | ⟨hi, hset⟩ := setRegister_answers i v hs
  · refine ⟨fun _ => ?_, fun h => absurd h (by decide)⟩
    exact ⟨_, hset, getRegister_zero hs, getRegister_one hs, getRegister_zero hs, rfl, rfl, rfl, rfl, rfl⟩
  · refine ⟨fun _ => ?_, fun h => absurd h (by decide)⟩
    exact ⟨_, hset, getRegister_one hs, getRegister_zero hs, getRegister_one hs, rfl, rfl, rfl, rfl, rfl⟩
  · refine ⟨fun h => absurd h (Nat.not_lt.2 hi), fun _ => ⟨hset, ?_⟩⟩
    obtain ⟨rfl, _⟩ | ⟨rfl, _⟩ | ⟨_, hget⟩ := getRegister_answers i hs
    · exact absurd hi (by decide)
    · exact absurd hi (by decide)
    · exact hget

/-! ## Memory (45_sequencer.md R79, 20_memory.md R50) -/

/-- Where the encoder's writes complete, every address they do not cover reads as before. -/
theorem memRead_of_storeBytes_outside {m m' : Memory} {a b : Nat} {i : Instr} (hwf : Memory.wf m = true)
    (h : storeBytes m a (encode i) = .ok m') (hb : b < a ∨ a + instrWidth i ≤ b) : memRead m' b = memRead m b := by
  obtain ⟨_, _, hget⟩ := storeBytes_ok hwf h
  refine memRead_congr ?_
  rw [hget b]
  split_ifs with hab
  · rw [List.getElem?_eq_none (by rw [encode_length]; omega), Option.getD_none]
  · rfl

theorem step_keeps_mem {s t : State} (h : step s = .next t) : t.mem = s.mem := by
  obtain ⟨_, ⟨_, rfl⟩ | ⟨_, ⟨f, _, rfl⟩ | ⟨i, w, _, ⟨f, _, rfl⟩ | ⟨e, he, rfl⟩⟩⟩⟩ := step_next_cases h
  · rfl
  · rfl
  · rfl
  · exact exec_keeps_mem (exec_of_execute_ok he)

/-- No operation but `new()` and `load_command` writes memory. -/
theorem hostCall_keeps_mem {s : State} {op : HostOp} (hnew : op ≠ .new) (hload : ∀ a i, op ≠ .loadCommand a i) :
    (stateAfter s (hostCall op s)).mem = s.mem := by
  cases op with
  | new => exact absurd rfl hnew
  | setRegister i v => obtain h | ⟨_, h⟩ | ⟨_, h⟩ | ⟨f, h⟩ := setRegister_leaves i v s <;> simp [h]
  | getRegister i => obtain h | ⟨f, h⟩ := getRegister_leaves i s <;> simp [h]
  | loadCommand a i => exact absurd rfl (hload a i)
  | fetchCommandAt a => obtain h | ⟨f, h⟩ := fetchCommandAt_leaves a s <;> simp [h]
  | executeCommandAt a =>
    obtain h | ⟨f, h⟩ | ⟨i, e, he, h⟩ := executeCommandAt_leaves a s
    · rw [h]
    · rw [h, raise_mem]
    · obtain ⟨hmem, _⟩ := execute_frame he
      rw [h, hmem]
  | executeCommand n =>
    exact executeCommand_keeps (P := fun t => t.mem = s.mem) (fun _ _ h ht => (step_keeps_mem ht).trans h) n rfl

/-- Settles O9: a load that fits completes and decodes back, so the encoding stands there, and the encoder writes nowhere
else. -/
theorem loadCommandWritesExactlyTheEncoding : Obligations.LoadCommandWritesExactlyTheEncoding := by
  refine ⟨fun s a i hs hwf hfits => ?_, fun s op hnew hload => hostCall_keeps_mem hnew hload⟩
  obtain ⟨m, hstore⟩ := storeBytes_succeeds (m := s.mem) (hfits.trans_eq' (by rw [encode_length]))
  have hstands := encode_stands_of_decodeAt (decodeAt_of_storeBytes hwf hstore)
  refine ⟨{ s with mem := m }, ?_, fun k hk => ?_, fun b hb => memRead_of_storeBytes_outside hwf hstore hb, rfl, rfl,
    rfl, rfl, rfl, rfl⟩
  · simp only [hostCall, ifRunnable_runnable hs, hostLoadCommand, hstore]
  · have hread : memRead m (a + k) = .ok (memGet m (a + k)) := memRead_eq_ok_iff.2 ⟨by omega, rfl⟩
    rw [hstands k hk, hread]
    rfl

/-! ## Single instructions by the host and in the run loop (45_sequencer.md R81, R85) -/

/-- The `pc` that an execution leaves on a machine whose `pc` is `p`: only JMP writes it (41_control.md R71). -/
def executedPc (p : Byte) : Instr → Byte
  | .add _ _ => p
  | .sub _ _ => p
  | .nop => p
  | .jmp t => t

theorem execute_pc {i : Instr} {s : State} {e : Executed} (h : execute i s = .ok e) :
    e.state.pc = executedPc s.pc i := by
  have hk := execute_ok h
  cases i with
  | add x y => obtain ⟨v, _, rfl⟩ := hk; rfl
  | sub x y => obtain ⟨v, _, rfl⟩ := hk; rfl
  | nop => cases hk; rfl
  | jmp t => cases hk; rfl

/-- An execution does not read `pc`: from any other it gives the same result and the same state, but for `pc`. -/
theorem execute_setPc {i : Instr} {s : State} {e : Executed} (p : Byte) (h : execute i s = .ok e) :
    execute i (setPc s p) = .ok { state := setPc e.state (executedPc p i), result := e.result } := by
  have sameOperands : ∀ x y, regOperands (setPc s p) x y = regOperands s x y := fun _ _ => rfl
  have hk := execute_ok h
  cases i with
  | add x y =>
    obtain ⟨v, hv, rfl⟩ := hk
    exact (AluInstr.add x y).execute_of_operands ((sameOperands x y).trans hv)
  | sub x y =>
    obtain ⟨v, hv, rfl⟩ := hk
    exact (AluInstr.sub x y).execute_of_operands ((sameOperands x y).trans hv)
  | nop => cases hk; rfl
  | jmp t => cases hk; rfl

/-- What an `execute_command_at` that returns has done. -/
theorem executeCommandAt_returned {s t : State} {a : Nat} {v : HostValue}
    (h : hostCall (.executeCommandAt a) s = .returned v t) :
    s.status = .runnable ∧ ∃ i w e, decodeAt s.mem a = .ok (i, w) ∧ execute i s = .ok e ∧ v = .byte e.result ∧
      t = e.state := by
  obtain ⟨hs, _⟩ := runnable_of_ifRunnable_returned h
  obtain ⟨f, _, hc⟩ | ⟨i, w, hd, ⟨f, _, hc⟩ | ⟨e, he, hc⟩⟩ := executeCommandAt_answers a hs <;>
    rw [hc] at h <;> cases h
  exact ⟨hs, i, w, e, hd, he, rfl, rfl⟩

/-- Settles O34: the frame of the execution, and the same execution from another `pc`. -/
theorem executeAtReadsNoPcAndWritesItOnlyForJmp : Obligations.ExecuteAtReadsNoPcAndWritesItOnlyForJmp := by
  intro s t a v hcall
  obtain ⟨hs, i, w, e, hd, he, rfl, rfl⟩ := executeCommandAt_returned hcall
  obtain ⟨hmem, hr1, hstatus, htrace, _⟩ := execute_frame he
  have hpc : e.state.pc = executedPc s.pc i := execute_pc he
  have hsame : ∀ p, hostCall (.executeCommandAt a) (setPc s p) =
      .returned (.byte e.result) (setPc e.state (executedPc p i)) :=
    fun p => executeCommandAt_of_execute_ok (s := setPc s p) hs hd (execute_setPc p he)
  refine ⟨i, w, hd, htrace, hmem, hr1, hstatus, ?_⟩
  cases i <;> exact ⟨hpc, hsame⟩

/-- What an `execute_command_at` that faults has done: it has entered the fault of the decode or of the execution. -/
theorem executeCommandAt_faulted {s t : State} {a : Nat} {f : Fault} (hs : s.status = .runnable)
    (h : hostCall (.executeCommandAt a) s = .faulted f t) :
    t = raise f s ∧ (decodeAt s.mem a = .error f ∨
      ∃ i w, decodeAt s.mem a = .ok (i, w) ∧ execute i s = .error f) := by
  obtain ⟨f', hd, hc⟩ | ⟨i, w, hd, ⟨f', hf, hc⟩ | ⟨e, _, hc⟩⟩ := executeCommandAt_answers a hs <;>
    rw [hc] at h <;> cases h
  · exact ⟨rfl, .inl hd⟩
  · exact ⟨rfl, .inr ⟨i, w, hd, hf⟩⟩

/-- Settles O22: the operation and the iteration decode and execute alike; the iteration retires what the operation
returns, and enters the fault that it ends in. -/
theorem iterationIsExecuteAtThenEmitThenAdvance : Obligations.IterationIsExecuteAtThenEmitThenAdvance := by
  refine fun s hs hp => ⟨fun b t h => ?completes, fun f t h => ?faults, ?total⟩
  case completes =>
    obtain ⟨_, i, w, e, hd, he, hb, rfl⟩ := executeCommandAt_returned h
    cases hb
    rw [← execute_keeps_trace he]
    exact ⟨i, w, hd, (step_eq_exec hs hp hd).trans (exec_of_execute_ok he)⟩
  case faults =>
    obtain ⟨rfl, hd | ⟨i, w, hd, hf⟩⟩ := executeCommandAt_faulted hs h
    · exact ⟨step_decodeFault hs hp hd, rfl⟩
    · exact ⟨(step_eq_exec hs hp hd).trans (exec_of_execute_error hf), rfl⟩
  case total =>
    obtain ⟨f, _, h⟩ | ⟨i, w, _, ⟨f, _, h⟩ | ⟨e, _, h⟩⟩ := executeCommandAt_answers s.pc.toNat hs
    · exact .inr ⟨f, _, h⟩
    · exact .inr ⟨f, _, h⟩
    · exact .inl ⟨_, _, h⟩

/-! ## Refusals (45_sequencer.md R75, R76) -/

/-- A RUNNABLE machine, halted or not, refuses no operation. -/
theorem hostCall_ne_refused {s : State} (hs : s.status = .runnable) (op : HostOp) (r : Refusal) :
    hostCall op s ≠ .refused r := by
  cases op with
  | new => simp [hostCall, hostNew]
  | setRegister i v => obtain ⟨_, h⟩ | ⟨_, h⟩ | ⟨_, h⟩ := setRegister_answers i v hs <;> simp [h]
  | getRegister i => obtain ⟨_, h⟩ | ⟨_, h⟩ | ⟨_, h⟩ := getRegister_answers i hs <;> simp [h]
  | loadCommand a i => obtain ⟨m, _, h⟩ | ⟨k, _, h⟩ := loadCommand_answers a i hs <;> simp [h]
  | fetchCommandAt a => obtain ⟨i, w, _, h⟩ | ⟨f, _, h⟩ := fetchCommandAt_answers a hs <;> simp [h]
  | executeCommandAt a =>
    obtain ⟨f, _, h⟩ | ⟨i, w, _, ⟨f, _, h⟩ | ⟨e, _, h⟩⟩ := executeCommandAt_answers a hs <;> simp [h]
  | executeCommand n =>
    rw [hostCall_executeCommand_runnable hs]
    obtain ⟨t, h, _⟩ | ⟨f, t, h, _⟩ | ⟨t, h⟩ := run_answers n hs <;> simp [h]

/-- Settles O44: no operation is refused on a RUNNABLE machine, all but `new()` are on a FAULTED one, and a refusal shows
the state it was called in. -/
theorem refusedExactlyWhenFaulted : Obligations.RefusedExactlyWhenFaulted := by
  refine fun s op => ⟨⟨?_, ?_⟩, ?_⟩
  · rintro ⟨r, h⟩
    refine ⟨?_, ?_⟩
    · rintro rfl
      cases h
    · cases hs : s.status with
      | runnable => exact absurd h (hostCall_ne_refused hs op r)
      | faulted f => exact ⟨f, rfl⟩
  · rintro ⟨hnew, f, hs⟩
    exact ⟨_, hostCall_of_faulted hs hnew⟩
  · rintro ⟨r, h⟩
    rw [h]
    rfl

end Sys2Proof.Proofs.HostAnswers

/-!
PROOFS. The invariant of the machine's states (`State.Inv`): memory stays in its canonical form, and a fault record is
one that its causes can write (60_exceptions.md R91 to R94), after a step, an operation, a sequence of operations.
-/

namespace Sys2Proof.Proofs.Invariant

open Sys2Proof Sys2Proof.Machine Sys2Proof.Proofs.HostFrame Sys2Proof.Proofs.HostAnswers

/-! ## The invariant of a state -/

theorem inv_iff {s : State} :
    s.Inv = true ↔ Memory.wf s.mem = true ∧ Status.legal s.mem s.status = true := by
  rw [State.Inv, Bool.and_eq_true]

theorem wf_of_inv {s : State} (h : s.Inv = true) : Memory.wf s.mem = true := (inv_iff.1 h).1

/-- The invariant looks at the memory and the status alone. -/
theorem inv_congr {s t : State} (hmem : t.mem = s.mem) (hstatus : t.status = s.status) : t.Inv = s.Inv := by
  rw [State.Inv, State.Inv, hmem, hstatus]

/-- On a RUNNABLE machine the invariant is the canonical form of its memory. -/
theorem inv_of_runnable {s : State} (hs : s.status = .runnable) (hwf : Memory.wf s.mem = true) : s.Inv = true :=
  inv_iff.2 ⟨hwf, by rw [hs]; rfl⟩

/-- Taking a fault with a legal record keeps the invariant. -/
theorem raise_inv {s : State} {f : Fault} (hwf : Memory.wf s.mem = true) (hf : Fault.legal s.mem f = true) :
    (raise f s).Inv = true :=
  inv_iff.2 ⟨hwf, hf⟩

/-! ## Legal fault records (60_exceptions.md R91 to R94) -/

/-- An index outside memory is a legal record, whatever memory holds (R92). -/
theorem legal_mem {m : Memory} {k : Nat} (h : memSize ≤ k) : Fault.legal m (.indexOutOfRange .mem k) = true :=
  decide_eq_true h

/-- An index outside the register file is a legal record, whatever memory holds (R93). -/
theorem legal_reg {m : Memory} {k : Nat} (h : numRegs ≤ k) : Fault.legal m (.indexOutOfRange .reg k) = true :=
  decide_eq_true h

/-- A decode that fails writes a legal record: an address outside memory, or a byte of memory that is no opcode. -/
theorem legal_of_decodeAt_error {m : Memory} {a : Nat} {f : Fault} (h : decodeAt m a = .error f) :
    Fault.legal m f = true := by
  rw [decodeAt_eq] at h
  split_ifs at h with hout hadd _ hsub _ hnop hjmp <;> cases h
  · exact legal_mem hout
  · exact legal_mem le_rfl
  · exact legal_mem le_rfl
  · exact legal_mem le_rfl
  · simp [Fault.legal, Nat.lt_of_not_le hout, hadd, hsub, hnop, hjmp]

/-- An execution that faults writes a legal record. -/
theorem legal_of_execute_error {m : Memory} {i : Instr} {s : State} {f : Fault} (h : execute i s = .error f) :
    Fault.legal m f = true := by
  obtain ⟨k, hk, rfl⟩ := execute_error h
  exact legal_reg hk

/-! ## What keeps the invariant -/

theorem execute_keeps_inv {i : Instr} {s : State} {e : Executed} (h : execute i s = .ok e) (hinv : s.Inv = true) :
    e.state.Inv = true := by
  obtain ⟨hmem, _, hstatus, _⟩ := execute_frame h
  rw [inv_congr hmem hstatus, hinv]

theorem step_keeps_inv {s t : State} (hinv : s.Inv = true) (h : step s = .next t) : t.Inv = true := by
  have hwf := wf_of_inv hinv
  obtain ⟨_, ⟨_, rfl⟩ | ⟨_, ⟨f, hd, rfl⟩ | ⟨i, w, _, ⟨f, hf, rfl⟩ | ⟨e, he, rfl⟩⟩⟩⟩ := step_next_cases h
  · exact hinv
  · exact raise_inv hwf (legal_of_decodeAt_error hd)
  · exact raise_inv hwf (legal_of_execute_error hf)
  · exact execute_keeps_inv he hinv

/-- `new()` gives a memory in canonical form and RUNNABLE (70_reset_and_hazards.md R110). -/
theorem new_inv (s : State) : (stateAfter s (hostCall .new s)).Inv = true :=
  inv_of_runnable rfl reset_mem_wf

/-- `load_command` keeps the canonical form, whether it completes or fails partway (60_exceptions.md R98). -/
theorem loadCommand_keeps_inv {s : State} (a : Nat) (i : Instr) (hs : s.status = .runnable) (hinv : s.Inv = true) :
    (stateAfter s (hostCall (.loadCommand a i) s)).Inv = true := by
  have hwf := wf_of_inv hinv
  obtain ⟨m, hstore, h⟩ | ⟨k, hk, h⟩ := loadCommand_answers a i hs <;> rw [h]
  · obtain ⟨hwf', _⟩ := storeBytes_ok hwf hstore
    exact inv_of_runnable hs hwf'
  · obtain ⟨hwf', _⟩ := freeBytes_frame (n := instrWidth i) (j := s.freeIndex) (a := a) hwf
    exact raise_inv hwf' (legal_mem hk)

/-- Every operation on a RUNNABLE machine keeps the invariant. -/
theorem hostCall_keeps_inv_of_runnable {s : State} (op : HostOp) (hs : s.status = .runnable) (hinv : s.Inv = true) :
    (stateAfter s (hostCall op s)).Inv = true := by
  have hwf := wf_of_inv hinv
  cases op with
  | new => exact new_inv s
  | setRegister i v =>
    obtain ⟨_, h⟩ | ⟨_, h⟩ | ⟨hi, h⟩ := setRegister_answers i v hs <;> rw [h]
    · exact inv_of_runnable hs hwf
    · exact inv_of_runnable hs hwf
    · exact raise_inv hwf (legal_reg hi)
  | getRegister i =>
    obtain ⟨_, h⟩ | ⟨_, h⟩ | ⟨hi, h⟩ := getRegister_answers i hs <;> rw [h]
    · exact hinv
    · exact hinv
    · exact raise_inv hwf (legal_reg hi)
  | loadCommand a i => exact loadCommand_keeps_inv a i hs hinv
  | fetchCommandAt a =>
    obtain ⟨i, w, _, h⟩ | ⟨f, hd, h⟩ := fetchCommandAt_answers a hs <;> rw [h]
    · exact hinv
    · exact raise_inv hwf (legal_of_decodeAt_error hd)
  | executeCommandAt a =>
    obtain ⟨f, hd, h⟩ | ⟨i, w, _, ⟨f, hf, h⟩ | ⟨e, he, h⟩⟩ := executeCommandAt_answers a hs <;> rw [h]
    · exact raise_inv hwf (legal_of_decodeAt_error hd)
    · exact raise_inv hwf (legal_of_execute_error hf)
    · exact execute_keeps_inv he hinv
  | executeCommand n => exact executeCommand_keeps (fun _ _ => step_keeps_inv) n hinv

/-- A FAULTED machine refuses all but `new()`, so there too every operation keeps the invariant. -/
theorem hostCall_keeps_inv {s : State} (op : HostOp) (hinv : s.Inv = true) :
    (stateAfter s (hostCall op s)).Inv = true := by
  cases hs : s.status with
  | runnable => exact hostCall_keeps_inv_of_runnable op hs hinv
  | faulted f =>
    by_cases hnew : op = .new
    · rw [hnew]
      exact new_inv s
    · rw [hostCall_of_faulted hs hnew]
      exact hinv

/-- Settles O50, by induction on the operations: each keeps the invariant in the state it shows, where the host goes on
or, inside a call that has not ended, stays. -/
theorem hostOperationsKeepTheInvariant : Obligations.HostOperationsKeepTheInvariant := by
  intro s ops hinv
  induction ops generalizing s with
  | nil => exact hinv
  | cons op ops ih =>
    have hafter := hostCall_keeps_inv op hinv
    obtain ⟨t, hr, hd⟩ | ⟨_, hd⟩ := hostDrive_cons_cases op ops s <;> rw [hd]
    · rwa [hr] at hafter
    · exact ih _ hafter

end Sys2Proof.Proofs.Invariant

/-!
PROOFS. Which fault is raised, where, and with which record (60_exceptions.md R90 to R94, R99): the faults of a decode,
the bad register operands of ADD and SUB, and the first of them in the spec's order.
-/

namespace Sys2Proof.Proofs.FaultRecords

open Sys2Proof Sys2Proof.Machine Sys2Proof.Proofs.ExecutionFrame Sys2Proof.Proofs.HostFrame
open Sys2Proof.Proofs.MemoryReads
open Sys2Proof.Proofs.EncodeDecode Sys2Proof.Proofs.Arithmetic Sys2Proof.Proofs.Control
open Sys2Proof.Proofs.HostAnswers Sys2Proof.Proofs.Invariant

/-- Settles O49: each way a step can end keeps memory and either keeps the status or enters a legal record. -/
theorem stepKeepsTheInvariant : Obligations.StepKeepsTheInvariant :=
  fun _ _ hinv h => step_keeps_inv hinv h

/-! ## The faults of a decode (60_exceptions.md R91, R92) -/

/-- The four opcode bytes (30_encoding.md R54). -/
def opcodes : List Byte := [opAdd, opSub, opNop, opJmp]

theorem opcodeOf_mem_opcodes (i : Instr) : opcodeOf i ∈ opcodes := by
  cases i <;> simp [opcodeOf, opcodes]

section
variable {m : Memory} {a : Nat}

theorem decodeAt_outside (ha : memSize ≤ a) : decodeAt m a = .error (.indexOutOfRange .mem a) := by
  rw [decodeAt_eq, if_pos ha]

theorem decodeAt_illegal (ha : a < memSize) (hop : memGet m a ∉ opcodes) :
    decodeAt m a = .error (.invalidOpcode a (memGet m a)) := by
  rw [decodeAt, codeBytes_succ ha, decode_illegal _ hop]
  rfl

/-- An instruction that does not end inside memory faults at the first address after memory. With its opcode known, the
decoder's branch is chosen by evaluation. -/
theorem decodeAt_truncated {i : Instr} (ha : a < memSize) (hop : memGet m a = opcodeOf i)
    (hout : memSize < a + instrWidth i) : decodeAt m a = .error (.indexOutOfRange .mem memSize) := by
  rw [decodeAt_eq, if_neg (Nat.not_le.2 ha), hop]
  cases i with
  | add x y => exact if_neg (Nat.not_le.2 hout)
  | sub x y => exact if_neg (Nat.not_le.2 hout)
  | nop => exact absurd hout (Nat.not_lt.2 ha)
  | jmp t => exact if_neg (Nat.not_le.2 hout)

/-- All the ways a decode can fault, in the order of R99: no opcode byte, no opcode, or an instruction that does not end
inside memory. -/
theorem decodeAt_error_cases {f : Fault} (h : decodeAt m a = .error f) :
    (memSize ≤ a ∧ f = .indexOutOfRange .mem a) ∨
      (a < memSize ∧ memGet m a ∉ opcodes ∧ f = .invalidOpcode a (memGet m a)) ∨
      (a < memSize ∧ f = .indexOutOfRange .mem memSize ∧
        ∃ i, memGet m a = opcodeOf i ∧ memSize < a + instrWidth i) := by
  by_cases hout : memSize ≤ a
  · rw [decodeAt_outside hout] at h
    cases h
    exact .inl ⟨hout, rfl⟩
  · have ha : a < memSize := Nat.lt_of_not_le hout
    rw [decodeAt_eq, if_neg hout] at h
    split_ifs at h with hadd hfits hsub hfits hnop hjmp hfits <;> cases h
    · exact .inr (.inr ⟨ha, rfl, .add 0 0, hadd, Nat.lt_of_not_le hfits⟩)
    · exact .inr (.inr ⟨ha, rfl, .sub 0 0, hsub, Nat.lt_of_not_le hfits⟩)
    · exact .inr (.inr ⟨ha, rfl, .jmp 0, hjmp, Nat.lt_of_not_le hfits⟩)
    · exact .inr (.inl ⟨ha, by simp [opcodes, hadd, hsub, hnop, hjmp], rfl⟩)

end

section
variable {s : State} {a : Nat} {f : Fault}

/-- Only on a RUNNABLE machine does an operation fault: on a FAULTED one all are refused but `new()`, which returns
(45_sequencer.md R75). -/
theorem runnable_of_hostCall_faulted {t : State} {op : HostOp} (h : hostCall op s = .faulted f t) :
    s.status = .runnable := by
  cases hs : s.status with
  | runnable => rfl
  | faulted g =>
    have hnew : op ≠ .new := by
      rintro rfl
      cases h
    rw [hostCall_of_faulted hs hnew] at h
    cases h

theorem fetchCommandAt_of_decodeAt_error (hs : s.status = .runnable) (hd : decodeAt s.mem a = .error f) :
    hostCall (.fetchCommandAt a) s = .faulted f (raise f s) := by
  simp only [hostCall, ifRunnable_runnable hs, hostFetchCommandAt, hd, hostFault]

theorem executeCommandAt_of_decodeAt_error (hs : s.status = .runnable) (hd : decodeAt s.mem a = .error f) :
    hostCall (.executeCommandAt a) s = .faulted f (raise f s) := by
  simp only [hostCall, ifRunnable_runnable hs, hostExecuteCommandAt, hd, hostFault]

end

/-- Settles O37: a byte that is no opcode fails the decode, and with it each operation that decodes there; of the
faults of a decode only that one is InvalidOpcode. -/
theorem illegalOpcodeRaisesInvalidOpcode : Obligations.IllegalOpcodeRaisesInvalidOpcode := by
  refine ⟨fun s a op hs hread hop => ?raised, fun m a b op h => ?only⟩
  case raised =>
    obtain ⟨ha, rfl⟩ := memRead_eq_ok_iff.1 hread
    have hd := decodeAt_illegal ha hop
    refine ⟨fetchCommandAt_of_decodeAt_error hs hd, executeCommandAt_of_decodeAt_error hs hd, ?_, rfl⟩
    rintro rfl n
    exact executeCommand_decodeFault hs ha hd
  case only =>
    obtain ⟨_, hf⟩ | ⟨ha, hop, hf⟩ | ⟨_, hf, _⟩ := decodeAt_error_cases h <;> cases hf
    exact ⟨rfl, memRead_eq_ok_iff.2 ⟨ha, rfl⟩, hop⟩

/-- An encoder write that does not end inside memory faults at the first address that does not exist (R92). -/
theorem loadCommand_outside {s : State} {a : Nat} {i : Instr} (hs : s.status = .runnable)
    (hout : memSize < a + instrWidth i) :
    hostCall (.loadCommand a i) s = hostFault (.indexOutOfRange .mem (max a memSize)) (scramble a (instrWidth i) s) := by
  have hstore := storeBytes_faults (m := s.mem) (encode_ne_nil i) (hout.trans_eq (by rw [encode_length]))
  simp only [hostCall, ifRunnable_runnable hs, hostLoadCommand, hstore]

/-- Settles O38: a decode outside memory or cut off by its end, and the encoder's writes, each name the first address
that does not exist. -/
theorem memoryIndexOutOfRangeIsFatal : Obligations.MemoryIndexOutOfRangeIsFatal := by
  refine fun s a hs => ⟨fun hout => ?opcodeRead, fun i hread hout => ?operandRead, fun i hout => ?encoderWrite, rfl⟩
  case opcodeRead => exact fetchCommandAt_of_decodeAt_error hs (decodeAt_outside hout)
  case operandRead =>
    obtain ⟨ha, hop⟩ := memRead_eq_ok_iff.1 hread
    exact fetchCommandAt_of_decodeAt_error hs (decodeAt_truncated ha hop hout)
  case encoderWrite => exact ⟨_, rfl, loadCommand_outside hs hout⟩

/-! ## Bad register operands (60_exceptions.md R93, R99) -/

/-- The index that ADD and SUB report when a register operand is bad: `x` if it is bad, `y` otherwise. -/
def reportedIndex (x y : Byte) : Nat := if 2 ≤ x.toNat then x.toNat else y.toNat

theorem reportedIndex_eq_or (x y : Byte) : reportedIndex x y = x.toNat ∨ reportedIndex x y = y.toNat :=
  ite_eq_or_eq _ _ _

theorem reportedIndex_bad {x y : Byte} (h : 2 ≤ x.toNat ∨ 2 ≤ y.toNat) : 2 ≤ reportedIndex x y := by
  rw [reportedIndex]
  split_ifs with hx
  · exact hx
  · exact h.resolve_left hx

section
variable {i : Instr} {alu : Byte → Byte → Byte} {x y : Byte} {s : State}

theorem execute_bad_operand (hi : AluInstr i alu x y) (h : 2 ≤ x.toNat ∨ 2 ≤ y.toNat) :
    execute i s = .error (.indexOutOfRange .reg (reportedIndex x y)) := by
  by_cases hx : 2 ≤ x.toNat
  · rw [reportedIndex, if_pos hx]
    exact hi.execute_bad_x hx
  · rw [reportedIndex, if_neg hx]
    exact hi.execute_bad_y (Nat.lt_of_not_le hx) (h.resolve_left hx)

/-- Only a bad register operand makes ADD or SUB fault, and `reportedIndex` is what they report. -/
theorem eq_reportedIndex_of_execute_error {f : Fault} (hi : AluInstr i alu x y) (h : execute i s = .error f) :
    f = .indexOutOfRange .reg (reportedIndex x y) := by
  by_cases hbad : 2 ≤ x.toNat ∨ 2 ≤ y.toNat
  · rw [execute_bad_operand hi hbad] at h
    exact (Except.error.inj h).symm
  · obtain ⟨hx, hy⟩ := not_or.1 hbad
    rw [hi.execute_valid (Nat.lt_of_not_le hx) (Nat.lt_of_not_le hy)] at h
    cases h

/-- No instruction but ADD and SUB faults when it executes. -/
theorem exists_aluInstr_of_execute_error {f : Fault} (h : execute i s = .error f) :
    ∃ alu x y, AluInstr i alu x y := by
  cases i with
  | add x y => exact ⟨_, x, y, .add x y⟩
  | sub x y => exact ⟨_, x, y, .sub x y⟩
  | nop => cases h
  | jmp t => cases h

/-- Where ADD or SUB decodes, its opcode and operand bytes stand inside memory. -/
theorem bytes_of_decodeAt {m : Memory} {a w : Nat} (hi : AluInstr i alu x y) (hd : decodeAt m a = .ok (i, w)) :
    a + 3 ≤ memSize ∧ memGet m a = opcodeOf i ∧ memGet m (a + 1) = x ∧ memGet m (a + 2) = y := by
  obtain ⟨hw, hfits⟩ := decodeAt_width hd
  obtain rfl : w = 3 := hw.trans hi.instrWidth_eq
  have hstands := encode_stands_of_decodeAt hd
  cases hi with
  | add | sub =>
    exact ⟨hfits, (Option.some.inj (hstands 0 (by decide))).symm, (Option.some.inj (hstands 1 (by decide))).symm,
      (Option.some.inj (hstands 2 (by decide))).symm⟩

end

/-- Settles O39: where ADD or SUB decodes, the operation ends in the fault of its execution; the host's register
operations check the index alike, and no fault of a decode names a register. -/
theorem registerIndexOutOfRangeIsFatal : Obligations.RegisterIndexOutOfRangeIsFatal := by
  refine ⟨fun s x y a w hs hbad hd => ?execution, fun s i v hs hi => ?host, fun m a k h => ?decoder⟩
  case execution =>
    refine ⟨reportedIndex x y, reportedIndex_eq_or x y, reportedIndex_bad hbad, rfl, ?_⟩
    obtain hd | hd := hd
    · exact executeCommandAt_of_execute_error hs hd (execute_bad_operand (.add x y) hbad)
    · exact executeCommandAt_of_execute_error hs hd (execute_bad_operand (.sub x y) hbad)
  case host =>
    obtain ⟨_, hfatal⟩ := setRegisterThenGetRegister s i v hs
    exact hfatal hi
  case decoder => obtain ⟨_, hf⟩ | ⟨_, _, hf⟩ | ⟨_, hf, _⟩ := decodeAt_error_cases h <;> cases hf

/-- Settles O14: the execution faults with the index that R99 puts first, and the iteration enters that fault. -/
theorem arithmeticWithBadIndexEntersTheFault : Obligations.ArithmeticWithBadIndexEntersTheFault :=
  fun x y _ hbad => ⟨exec_of_execute_error (execute_bad_operand (.add x y) hbad),
    exec_of_execute_error (execute_bad_operand (.sub x y) hbad)⟩

/-! ## The first fault in the spec's order (60_exceptions.md R99) -/

/-- The first fault in the order of R99 of an instruction at `a` that does not complete: the opcode read, the opcode,
the two operand reads, the two register reads. -/
def firstFault (m : Memory) (a : Nat) : Fault :=
  if memSize ≤ a then .indexOutOfRange .mem a
  else if memGet m a ∉ opcodes then .invalidOpcode a (memGet m a)
  else if memSize ≤ a + 1 then .indexOutOfRange .mem (a + 1)
  else if memSize ≤ a + 2 then .indexOutOfRange .mem (a + 2)
  else if 2 ≤ (memGet m (a + 1)).toNat then .indexOutOfRange .reg (memGet m (a + 1)).toNat
  else .indexOutOfRange .reg (memGet m (a + 2)).toNat

section
variable {m : Memory} {a : Nat}

/-- In front of an opcode byte the first fault is one of the operands, in memory or in the register file. -/
theorem firstFault_of_opcode {i : Instr} (ha : a < memSize) (hop : memGet m a = opcodeOf i) :
    firstFault m a =
      if memSize ≤ a + 1 then .indexOutOfRange .mem (a + 1)
      else if memSize ≤ a + 2 then .indexOutOfRange .mem (a + 2)
      else .indexOutOfRange .reg (reportedIndex (memGet m (a + 1)) (memGet m (a + 2))) := by
  have hmem : memGet m a ∈ opcodes := hop ▸ opcodeOf_mem_opcodes i
  rw [firstFault, if_neg (Nat.not_le.2 ha), if_neg (not_not.2 hmem), reportedIndex,
    apply_ite (Fault.indexOutOfRange .reg)]

theorem eq_firstFault_of_decodeAt_error {f : Fault} (h : decodeAt m a = .error f) : f = firstFault m a := by
  obtain ⟨hout, rfl⟩ | ⟨ha, hop, rfl⟩ | ⟨ha, rfl, i, hop, hout⟩ := decodeAt_error_cases h
  · rw [firstFault, if_pos hout]
  · rw [firstFault, if_neg (Nat.not_le.2 ha), if_pos hop]
  · rw [firstFault_of_opcode ha hop]
    by_cases h1 : memSize ≤ a + 1
    · rw [if_pos h1, le_antisymm h1 ha]
    · have h2 : a + 2 = memSize := by
        have hwidth : instrWidth i ≤ 3 := by cases i <;> simp [instrWidth]
        omega
      rw [if_neg h1, if_pos h2.ge, h2]

theorem eq_firstFault_of_execute_error {i : Instr} {w : Nat} {s : State} {f : Fault}
    (hd : decodeAt m a = .ok (i, w)) (h : execute i s = .error f) : f = firstFault m a := by
  obtain ⟨alu, x, y, hi⟩ := exists_aluInstr_of_execute_error h
  obtain ⟨hfits, hop, hx, hy⟩ := bytes_of_decodeAt hi hd
  rw [firstFault_of_opcode (by omega) hop, if_neg (by omega), if_neg (by omega), hx, hy]
  exact eq_reportedIndex_of_execute_error hi h

end

/-- Settles O40: the operation's fault is that of its decode or that of its execution, and either one is the first in
the order. -/
theorem firstFaultInOrderIsReported : Obligations.FirstFaultInOrderIsReported := by
  intro s t a f h
  obtain ⟨_, hd | ⟨i, w, hd, hf⟩⟩ := executeCommandAt_faulted (runnable_of_hostCall_faulted h) h
  · exact eq_firstFault_of_decodeAt_error hd
  · exact eq_firstFault_of_execute_error hd hf

end Sys2Proof.Proofs.FaultRecords

/-!
PROOFS. Faults are precise (60_exceptions.md R96 to R98): an operation, a step or a run that faults leaves the state from
before the faulting instruction with another status, and a failed encoder write keeps what it does not cover.
-/

namespace Sys2Proof.Proofs.PreciseFaults

open Sys2Proof Sys2Proof.Machine Sys2Proof.Proofs.HostSequences Sys2Proof.Proofs.ExecutionFrame
open Sys2Proof.Proofs.MemoryReads Sys2Proof.Proofs.Arithmetic Sys2Proof.Proofs.RunLoop
open Sys2Proof.Proofs.HostAnswers Sys2Proof.Proofs.FaultRecords

/-! ## One step (60_exceptions.md R96) -/

/-- All that a step which enters a fault has done: it has raised, on a machine that was running, the fault in which
`execute_command_at` ends at that `pc`. -/
theorem step_enters_fault {s t : State} {f : Fault} (h : step s = .next t) (ht : t.status = .faulted f) :
    t = raise f s ∧ s.status = .runnable ∧ s.pc.toNat < memSize ∧
      hostCall (.executeCommandAt s.pc.toNat) s = .faulted f t := by
  obtain ⟨hs, ⟨_, rfl⟩ | ⟨hp, ⟨g, hd, rfl⟩ | ⟨i, w, hd, ⟨g, hf, rfl⟩ | ⟨e, he, rfl⟩⟩⟩⟩ := step_next_cases h
  · rw [hs] at ht; cases ht
  · cases ht
    exact ⟨rfl, hs, hp, executeCommandAt_of_decodeAt_error hs hd⟩
  · cases ht
    exact ⟨rfl, hs, hp, executeCommandAt_of_execute_error hs hd hf⟩
  · have hrunnable : (afterIteration i s e).status = .runnable := (afterIteration_status he).trans hs
    cases hrunnable.symm.trans ht

/-- Settles O42: `step_enters_fault`, where raising a fault is the write of the status. -/
theorem stepEntersAFaultByWritingOnlyTheStatus : Obligations.StepEntersAFaultByWritingOnlyTheStatus :=
  fun _ _ _ h ht => step_enters_fault h ht

/-! ## Single operations and runs (60_exceptions.md R97) -/

/-- A single operation that faults has raised the fault in the state it was called in, unless it is `load_command`. -/
theorem eq_raise_of_hostCall_faulted {s t : State} {op : HostOp} {f : Fault} (hload : ∀ a i, op ≠ .loadCommand a i)
    (hrun : ∀ n, op ≠ .executeCommand n) (h : hostCall op s = .faulted f t) : t = raise f s := by
  have hs := runnable_of_hostCall_faulted h
  cases op with
  | new => cases h
  | setRegister i v =>
    obtain ⟨_, hc⟩ | ⟨_, hc⟩ | ⟨_, hc⟩ := setRegister_answers i v hs <;> rw [hc] at h <;> cases h
    rfl
  | getRegister i =>
    obtain ⟨_, hc⟩ | ⟨_, hc⟩ | ⟨_, hc⟩ := getRegister_answers i hs <;> rw [hc] at h <;> cases h
    rfl
  | loadCommand a i => exact absurd rfl (hload a i)
  | fetchCommandAt a =>
    obtain ⟨i, w, _, hc⟩ | ⟨g, _, hc⟩ := fetchCommandAt_answers a hs <;> rw [hc] at h <;> cases h
    rfl
  | executeCommandAt a =>
    obtain ⟨hraise, _⟩ := executeCommandAt_faulted hs h
    exact hraise
  | executeCommand n => exact absurd rfl (hrun n)

/-- A run that faults does so in its first iteration that faults: the iterations before it lead to a state in which the
run has not ended, and the step from there enters the fault. -/
theorem exists_faulting_step {n : Nat} {s t : State} {f : Fault} (hs : s.status = .runnable)
    (h : hostExecuteCommand n s = .faulted f t) :
    ∃ k u, k < n ∧ hostExecuteCommand k s = .stillRunning u ∧ step u = .next t ∧ t.status = .faulted f := by
  induction n generalizing s with
  | zero =>
    obtain ⟨_, hover⟩ | ⟨hzero, _⟩ := run_begins hs
    · rw [hover] at h; cases h
    · rw [hzero] at h; cases h
  | succ n ih =>
    by_cases hp : memSize ≤ s.pc.toNat
    · rw [hostExecuteCommand_halted hp] at h; cases h
    · have hin : s.pc.toNat < memSize := Nat.lt_of_not_le hp
      obtain ⟨s', hstep⟩ := step_of_runnable hs
      cases hs' : s'.status with
      | runnable =>
        rw [hostExecuteCommand_runnable hin hstep hs'] at h
        obtain ⟨k, u, hk, hu, hfault⟩ := ih hs' h
        exact ⟨k + 1, u, Nat.succ_lt_succ hk, (hostExecuteCommand_runnable hin hstep hs').trans hu, hfault⟩
      | faulted g =>
        rw [hostExecuteCommand_faulted hin hstep hs'] at h
        cases h
        exact ⟨0, s, n.succ_pos, hostExecuteCommand_zero hin, hstep, hs'⟩

/-- Settles O41: a run stops in the step that enters its fault, and that step has done no more than a single operation
that faults. -/
theorem faultsArePrecise : Obligations.FaultsArePrecise := by
  refine ⟨fun s t op f hload hrun h => eq_raise_of_hostCall_faulted hload hrun h, fun s t n f h => ?run⟩
  case run =>
    have hs := runnable_of_hostCall_faulted h
    rw [hostCall_executeCommand_runnable hs] at h
    obtain ⟨k, u, hk, hu, hstep, ht⟩ := exists_faulting_step hs h
    obtain ⟨hraise, _, _, hsingle⟩ := step_enters_fault hstep ht
    exact ⟨k, u, hk, (hostCall_executeCommand_runnable hs).trans hu, hsingle, hraise⟩

/-! ## Failed encoder writes (60_exceptions.md R98) -/

/-- Settles O43: a failed load raises its fault in the scrambled state, where `freeBytes_frame` says what memory still
holds. -/
theorem failedEncodeKeepsEverythingItDoesNotCover : Obligations.FailedEncodeKeepsEverythingItDoesNotCover := by
  intro s t a i f hwf h
  obtain ⟨m, _, hc⟩ | ⟨k, _, hc⟩ := loadCommand_answers a i (runnable_of_hostCall_faulted h) <;>
    rw [hc] at h <;> cases h
  obtain ⟨hwf', hget⟩ := freeBytes_frame (a := a) (n := instrWidth i) (j := s.freeIndex) hwf
  exact ⟨rfl, rfl, rfl, rfl, rfl, hwf', fun b hb => memRead_congr (hget b (by omega))⟩

end Sys2Proof.Proofs.PreciseFaults

/-!
PROOFS. Reset, unloaded memory and closed code (70_reset_and_hazards.md R110 to R113): the state that `new()` gives, the
fault at a byte that was never loaded, and code in which no run faults.
-/

namespace Sys2Proof.Proofs.ResetAndHazards

open Sys2Proof Sys2Proof.Machine Sys2Proof.Proofs.ExecutionFrame Sys2Proof.Proofs.HostFrame
open Sys2Proof.Proofs.MemoryReads Sys2Proof.Proofs.Arithmetic Sys2Proof.Proofs.Control Sys2Proof.Proofs.RunLoop
open Sys2Proof.Proofs.Invariant Sys2Proof.Proofs.FaultRecords Sys2Proof.Proofs.PreciseFaults

/-! ## Reset (R110) -/

/-- Settles O46: `new()` returns the reset state, but for the model's counter of free values, and O7 says how the reset
memory reads. -/
theorem newGivesTheResetState : Obligations.NewGivesTheResetState := by
  obtain ⟨_, hzeroed⟩ := readGivesTheMostRecentWrite
  exact ⟨fun s => ⟨{ State.reset with freeIndex := s.freeIndex }, rfl, hzeroed, rfl, rfl, rfl, rfl, rfl⟩,
    hzeroed, rfl, rfl, rfl, rfl, rfl⟩

/-- Settles O48: the reset state is RUNNABLE, and its memory, which lists no byte, is in canonical form. -/
theorem resetHasTheInvariant : Obligations.ResetHasTheInvariant := inv_of_runnable rfl reset_mem_wf

/-! ## Unloaded memory (R112) -/

/-- A run that stands at an unlisted byte faults in its first iteration: 0x00 is no opcode (60_exceptions.md R91). -/
theorem executeCommand_at_unlistedByte {s : State} (n : Nat) (hs : s.status = .runnable)
    (hread : memRead s.mem s.pc.toNat = .ok unlistedByte) :
    hostCall (.executeCommand (n + 1)) s =
      .faulted (.invalidOpcode s.pc.toNat unlistedByte) (raise (.invalidOpcode s.pc.toNat unlistedByte) s) := by
  obtain ⟨hraised, _⟩ := illegalOpcodeRaisesInvalidOpcode
  obtain ⟨_, _, hrun, _⟩ := hraised s s.pc.toNat unlistedByte hs hread (by decide)
  exact hrun rfl n

/-- Settles O47: `executeCommand_at_unlistedByte`, and the fresh machine stands at such a byte, that of address 0. -/
theorem unloadedMemoryFaultsAtOnce : Obligations.UnloadedMemoryFaultsAtOnce := by
  refine ⟨fun n => ?fresh, fun s n hs hread => executeCommand_at_unlistedByte n hs hread⟩
  case fresh =>
    obtain ⟨_, hzeroed⟩ := readGivesTheMostRecentWrite
    exact executeCommand_at_unlistedByte n reset_status (hzeroed 0 (by decide))

/-! ## Properties that steps keep without an end -/

/-- From a state with the property `I` a step answers a next state, and that state has `I` again. -/
def StepsWithin (I : State → Prop) : Prop := ∀ s, I s → ∃ t, step s = .next t ∧ I t

section
variable {I : State → Prop} {s : State}

theorem StepsWithin.next (hI : StepsWithin I) {t : State} (hs : I s) (hstep : step s = .next t) : I t := by
  obtain ⟨u, hu, hIu⟩ := hI s hs
  cases hstep.symm.trans hu
  exact hIu

/-- A run of one step more goes on from the state that the first step answers. -/
theorem run_succ_of_step {t : State} (h : step s = .next t) (n : Nat) :
    Host.Core.run Sys2Proof.core (n + 1) s = Host.Core.run Sys2Proof.core n t := by
  have hcore : Sys2Proof.core.step s = .next t := h
  simp only [Host.Core.run, hcore]

/-- However many steps a run makes, it answers a state with the property. -/
theorem StepsWithin.run (hI : StepsWithin I) (hs : I s) (n : Nat) :
    ∃ t, Host.Core.run Sys2Proof.core n s = .next t ∧ I t := by
  induction n generalizing s with
  | zero => exact ⟨s, rfl, hs⟩
  | succ n ih =>
    obtain ⟨t, hstep, ht⟩ := hI s hs
    rw [run_succ_of_step hstep]
    exact ih ht

theorem StepsWithin.safeRun (hI : StepsWithin I) (hrunnable : ∀ t, I t → t.status = .runnable) (hs : I s) :
    SafeRun s := by
  intro n
  obtain ⟨t, hrun, ht⟩ := hI.run hs n
  exact ⟨t, hrun, hrunnable t ht⟩

/-- The state of a run that has faulted is FAULTED, so it has no property that only RUNNABLE states have. -/
theorem StepsWithin.not_faults (hI : StepsWithin I) (hrunnable : ∀ t, I t → t.status = .runnable) (hs : I s) :
    ¬Faults s := by
  rintro ⟨n, f, t, hfault⟩
  have hafter : I (stateAfter s (hostExecuteCommand n s)) :=
    hostExecuteCommand_keeps (fun _ _ => hI.next) n (hrunnable s hs) hs
  rw [hfault] at hafter
  obtain ⟨_, _, _, _, _, hfaulted⟩ := exists_faulting_step (hrunnable s hs) hfault
  cases hfaulted.symm.trans (hrunnable t hafter)

end

/-! ## Closed code (R113) -/

/-- The run stands in closed code or has left it for good: the machine is RUNNABLE, the code `P` in its memory is
closed, and `pc` is in it or halted. -/
structure InClosedCode (P : Nat → Prop) (s : State) : Prop where
  runnable : s.status = .runnable
  closed : CodeClosed s.mem P
  pc : P s.pc.toNat ∨ memSize ≤ s.pc.toNat

/-- At an address of closed code an instruction decodes and completes, and NextPC is in that code or halted. -/
theorem closed_completes {P : Nat → Prop} {s : State} (hclosed : CodeClosed s.mem P) (hpc : P s.pc.toNat) :
    ∃ i w e, decodeAt s.mem s.pc.toNat = .ok (i, w) ∧ execute i s = .ok e ∧
      (P (nextPc s.pc i).toNat ∨ memSize ≤ (nextPc s.pc i).toNat) := by
  obtain ⟨i, w, hd, hleads⟩ := hclosed s.pc.toNat hpc
  obtain ⟨rfl, hfits⟩ := decodeAt_width hd
  have hnext := nextPc_toNat s.pc i hfits
  cases i with
  | add x y =>
    obtain ⟨hx, hy, hleads⟩ := hleads
    exact ⟨_, _, _, hd, (AluInstr.add x y).execute_valid hx hy, by rwa [hnext]⟩
  | sub x y =>
    obtain ⟨hx, hy, hleads⟩ := hleads
    exact ⟨_, _, _, hd, (AluInstr.sub x y).execute_valid hx hy, by rwa [hnext]⟩
  | nop => exact ⟨_, _, _, hd, rfl, by rwa [hnext]⟩
  | jmp t => exact ⟨_, _, _, hd, rfl, hleads⟩

/-- A halted machine stays where it is; at an address of the code the iteration completes, and memory keeps the code. -/
theorem inClosedCode_stepsWithin (P : Nat → Prop) : StepsWithin (InClosedCode P) := by
  intro s hs
  by_cases hout : memSize ≤ s.pc.toNat
  · exact ⟨s, step_halted hs.runnable hout, hs⟩
  · have hpc : P s.pc.toNat := hs.pc.resolve_right hout
    obtain ⟨i, w, e, hd, he, hnext⟩ := closed_completes hs.closed hpc
    obtain ⟨hmem, _⟩ := execute_frame he
    have hclosed : CodeClosed (afterIteration i s e).mem P := by
      rw [afterIteration, setPc_mem, emit_mem, hmem]
      exact hs.closed
    exact ⟨afterIteration i s e, (step_of_decodeAt hs.runnable hd).trans (exec_of_execute_ok he),
      (afterIteration_status he).trans hs.runnable, hclosed, hnext⟩

/-- Settles O51: `InClosedCode` goes on from step to step, and only RUNNABLE states have it. -/
theorem closedCodeNeverFaults : Obligations.ClosedCodeNeverFaults := by
  intro s P hs hclosed hpc
  have hin : InClosedCode P s := ⟨hs, hclosed, hpc⟩
  have hsteps := inClosedCode_stepsWithin P
  have hrunnable : ∀ t, InClosedCode P t → t.status = .runnable := fun _ ht => ht.runnable
  refine ⟨?step, hsteps.safeRun hrunnable hin, hsteps.not_faults hrunnable hin⟩
  case step =>
    obtain ⟨t, hstep, ht⟩ := hsteps s hin
    exact ⟨t, hstep, ht.runnable, ht.closed, ht.pc⟩

end Sys2Proof.Proofs.ResetAndHazards
